-- ==== Sys2Proof/Word.lean ====
section
/-! DEFINITION. The values the machine moves: symbol sequences, the nine operation names, the operand
fields of an instruction, and one location of the program store. -/

namespace Sys2Proof

/-- A register's value: a finite sequence of symbols, first symbol first (10_state.md R11). A symbol is
an unsigned number in 1..K; 0 is never one (00_scope.md, glossary). -/
abbrev Seq := List Nat

/-- The nine operations, in the order of the opcode map (30_encoding.md R64). -/
inductive Opcode where
  | add | tail | clr | assign | gotoa | gotob | jmpa | jmpb | cont
  deriving DecidableEq, Repr

/-- The fields of an instruction besides its opcode: every instruction of every opcode has all of them
(30_encoding.md R60, R61). `label = none` is the sentinel "unlabelled" (R69). -/
structure Fields where
  /-- the label this instruction declares -/
  label : Option Nat
  /-- register index, or unused -/
  x : Nat
  /-- symbol argument -/
  j : Nat
  /-- register index, or target label, or unused -/
  y : Nat
  deriving DecidableEq, Repr

/-- One location of the program store: one whole instruction (20_memory.md R40). -/
inductive StoreWord where
  /-- the packed form of an instance with finite widths (30_encoding.md R62, R63) -/
  | packed (w : Nat)
  /-- the record of the unbounded instance `ABS` (30_encoding.md R61, R63): the opcode is one of the nine
  names, or `none` where it is illegal -/
  | record (op : Option Opcode) (f : Fields)
  deriving DecidableEq, Repr

/-- Sparse data by key: (key, value) pairs. Its canonical form is `Table.Sorted` (Machine/Ops.lean). -/
abbrev Table (α : Type) := List (Nat × α)

/-- The program store: position to instruction (20_memory.md R40, R43). An unlisted position holds no word. -/
abbrev Memory := Table StoreWord

/-- The label index: label value to position (10_state.md R21). An unlisted label is `none`. -/
abbrev Lidx := Table Nat

end Sys2Proof
end

