-- ==== Sys2Proof/Config.lean ====
section
/-! DEFINITION. The instance parameters (00_scope.md R4), the two instantiations the spec names, and the
two values the spec leaves open. -/

namespace Sys2Proof

/-- The widths and capacities of an instance with finite widths (00_scope.md R4, 30_encoding.md R63). -/
structure Widths where
  /-- SYM_W: bits of a symbol and of the `j` field -/
  symW : Nat
  /-- REG_W: bits of a register index and of the `X` field -/
  regW : Nat
  /-- LBL_W: bits of a label value and of the `label` field -/
  lblW : Nat
  /-- r of R63: bits of the reserved field RES -/
  resW : Nat
  /-- PC_W: bits of PC -/
  pcW : Nat
  /-- PROG_CAP: largest PROG_LEN the program store holds -/
  progCap : Nat
  /-- CNT_W: bits of STEPCNT and MAX_STEPS -/
  cntW : Nat
  deriving DecidableEq, Repr

/-- OPC_W, fixed at 4 (00_scope.md R4). -/
def opcW : Nat := 4

/-- Y_W = max(REG_W, LBL_W) (00_scope.md R4). -/
def Widths.yW (W : Widths) : Nat := max W.regW W.lblW

/-- Bits of a packed instruction word (30_encoding.md R63). -/
def Widths.wordW (W : Widths) : Nat :=
  1 + W.resW + W.lblW + W.regW + opcW + W.symW + W.yW

/-- Bits of each INFO register: "as wide as the widest of PC_W, CNT_W, Y_W and 32 bits" (10_state.md R27). -/
def Widths.infoW (W : Widths) : Nat := max (max W.pcW W.cntW) (max W.yW 32)

/-- The parameters of one instance of the block (00_scope.md R4): `widths = none` is every width unbounded;
`cap` is CAP, `none` unbounded, which may also be taken alone as finite (92_eei_decisions.md, open parameters). -/
structure Params where
  widths : Option Widths
  cap    : Option Nat
  deriving DecidableEq, Repr

/-- The reference widths of 00_scope.md R4; RES has 3 bits (30_encoding.md R62). -/
def ref32Widths : Widths :=
  { symW := 4, regW := 4, lblW := 8, resW := 3, pcW := 16, progCap := 65534, cntW := 32 }

/-- The instantiation `REF32`. -/
def Params.ref32 : Params := { widths := some ref32Widths, cap := none }

/-- The instantiation `ABS`: every width and capacity unbounded. -/
def Params.abs : Params := { widths := none, cap := none }

/-- The instance that `State.reset` is a reset of: `ABS`, which the spec calls the default (92_eei_decisions.md D3;
log entry 1). Statements about every state hold for every instance. -/
def Config.params : Params := Params.abs

/-- What an INFO register of `w` bits holds when a halt's detail `v` needs more than `w` bits: the spec gives
the width (10_state.md R27) and no value for this case. Free value (log entry 9); it keeps the width. -/
opaque Config.wideInfo (w v : Nat) : BitVec w

/-- INFO_B of an IllegalInstruction under `ABS`: "the word fetched" (60_exceptions.md R151), where "there is no
packed form" (30_encoding.md R63). Free value (log entry 10). -/
opaque Config.recordWord (f : Fields) : Nat

end Sys2Proof
end

