-- ==== Sys2Proof/Syntax.lean ====
section
/-! DEFINITION. The instruction set RAM9: one constructor per row of spec/opcode_table.json. -/

namespace Sys2Proof

/-- The nine instructions (00_scope.md R2). Each carries all the fields (30_encoding.md R60); which of them it
uses is 30_encoding.md R65. -/
inductive Instr where
  /-- append symbol `j` to register `y` -/
  | add (f : Fields)
  /-- remove the first symbol of register `y` -/
  | tail (f : Fields)
  /-- empty register `x` -/
  | clr (f : Fields)
  /-- copy register `y` into register `x` -/
  | assign (f : Fields)
  /-- jump to the earlier position labelled `y` -/
  | gotoa (f : Fields)
  /-- jump to the later position labelled `y` -/
  | gotob (f : Fields)
  /-- as `gotoa`, if register `x` begins with `j` -/
  | jmpa (f : Fields)
  /-- as `gotob`, if register `x` begins with `j` -/
  | jmpb (f : Fields)
  /-- CONTINUE: halt cleanly -/
  | cont (f : Fields)
  deriving DecidableEq, Repr

/-- The instruction's fields. -/
def Instr.fields : Instr → Fields
  | .add f => f
  | .tail f => f
  | .clr f => f
  | .assign f => f
  | .gotoa f => f
  | .gotob f => f
  | .jmpa f => f
  | .jmpb f => f
  | .cont f => f

/-- The instruction's operation. -/
def Instr.opcode : Instr → Opcode
  | .add _ => .add
  | .tail _ => .tail
  | .clr _ => .clr
  | .assign _ => .assign
  | .gotoa _ => .gotoa
  | .gotob _ => .gotob
  | .jmpa _ => .jmpa
  | .jmpb _ => .jmpb
  | .cont _ => .cont

end Sys2Proof
end

