-- ==== Sys2Proof/WellFormed.lean ====
section
/-! DEFINITION. What a well-formed term is: fields that fit an instance's widths, an instance that meets the
constraints of 00_scope.md R4, the register operands a program may name. -/

namespace Sys2Proof

/-- The declared label fits LBL_W bits (00_scope.md R4: labels are 0 .. 2^LBL_W - 1). -/
def Fields.labelFits (W : Widths) (f : Fields) : Bool :=
  match f.label with
  | none => true
  | some l => decide (l < 2 ^ W.lblW)

/-- The fields fit the widths of the packed form (30_encoding.md R62, R63). -/
def Fields.wf (W : Widths) (f : Fields) : Bool :=
  f.labelFits W && decide (f.x < 2 ^ W.regW) && decide (f.j < 2 ^ W.symW) && decide (f.y < 2 ^ W.yW)

/-- A well-formed instruction of an instance with widths `W`. Under `ABS` every instruction is well formed. -/
def Instr.wf (W : Widths) (i : Instr) : Bool := i.fields.wf W

/-- The constraints of 00_scope.md R4 on the parameters themselves: PROG_CAP + 1 ≤ 2^PC_W - 1, and a counter
wide enough to hold MAX_STEPS + 1 for some MAX_STEPS. -/
def Widths.wf (W : Widths) : Bool :=
  decide (W.progCap + 1 ≤ 2 ^ W.pcW - 1) && decide (1 ≤ W.cntW)

/-- A well-formed instance. -/
def Params.wf (q : Params) : Bool :=
  match q.widths with
  | none => true
  | some W => W.wf

/-- The store location is in the instance's own form: a packed word that fits the word width, or under `ABS`
a record (30_encoding.md R63). -/
def StoreWord.wf (q : Params) : StoreWord → Bool
  | .packed w => match q.widths with
    | some W => decide (w < 2 ^ W.wordW)
    | none => false
  | .record _ _ => q.widths.isNone

end Sys2Proof
end

