-- ==== Sys2Proof/Decode.lean ====
section
/-! DEFINITION. The decoder (30_encoding.md R62 to R74), total on every word, and after it the encoder written
from the same table. -/

namespace Sys2Proof

/-- `w[lo+n-1:lo]`, read as an unsigned number (00_scope.md, notation). -/
def bitField (w lo n : Nat) : Nat := w / 2 ^ lo % 2 ^ n

/-! Where each field of the concatenation {LV, RES, LABEL, X, OPCODE, J, Y} begins (30_encoding.md R63). Under
`REF32` these are 0, 8, 12, 16, 20, 28 and 31 (R62). -/

def Widths.yLo (_ : Widths) : Nat := 0
def Widths.jLo (W : Widths) : Nat := W.yW
def Widths.opLo (W : Widths) : Nat := W.yW + W.symW
def Widths.xLo (W : Widths) : Nat := W.yW + W.symW + opcW
def Widths.labelLo (W : Widths) : Nat := W.yW + W.symW + opcW + W.regW
def Widths.resLo (W : Widths) : Nat := W.yW + W.symW + opcW + W.regW + W.lblW
def Widths.lvLo (W : Widths) : Nat := W.yW + W.symW + opcW + W.regW + W.lblW + W.resW

/-- The opcode map: ADD = 1 .. CONTINUE = 9 (30_encoding.md R64). -/
def Opcode.code : Opcode → Nat
  | .add => 1
  | .tail => 2
  | .clr => 3
  | .assign => 4
  | .gotoa => 5
  | .gotob => 6
  | .jmpa => 7
  | .jmpb => 8
  | .cont => 9

/-- The operation an OPCODE value selects; 0 and 10 to 15 select none (30_encoding.md R64, R71). -/
def Opcode.ofCode : Nat → Option Opcode
  | 1 => some .add
  | 2 => some .tail
  | 3 => some .clr
  | 4 => some .assign
  | 5 => some .gotoa
  | 6 => some .gotob
  | 7 => some .jmpa
  | 8 => some .jmpb
  | 9 => some .cont
  | _ => none

/-- The instruction of an operation and its fields (30_encoding.md R60). -/
def Instr.make (op : Opcode) (f : Fields) : Instr :=
  match op with
  | .add => .add f
  | .tail => .tail f
  | .clr => .clr f
  | .assign => .assign f
  | .gotoa => .gotoa f
  | .gotob => .gotob f
  | .jmpa => .jmpa f
  | .jmpb => .jmpb f
  | .cont => .cont f

/-- The label a packed word declares: LABEL when LV = 1, else none (30_encoding.md R69). It looks at no other
field: the Loader uses it on illegal words too (R72). -/
def wordLabel (W : Widths) (w : Nat) : Option Nat :=
  if bitField w W.lvLo 1 = 1 then some (bitField w W.labelLo W.lblW) else none

/-- The record fields of a packed word (30_encoding.md R69). -/
def wordFields (W : Widths) (w : Nat) : Fields :=
  { label := wordLabel W w
    x := bitField w W.xLo W.regW
    j := bitField w W.jLo W.symW
    y := bitField w W.yLo W.yW }

/-- Why a word is no instruction. -/
inductive Illegal where
  /-- RES is not 0 (30_encoding.md R72) -/
  | reservedBits
  /-- OPCODE is outside 1..9 (30_encoding.md R71) -/
  | unknownOpcode
  deriving DecidableEq, Repr

/-- What the decoder answers: every word is one of the nine instructions or illegal (30_encoding.md R74). -/
inductive Decoded where
  | instr (i : Instr)
  | illegal (why : Illegal)
  deriving DecidableEq, Repr

/-- The decoder of packed words: RES first, then OPCODE (30_encoding.md R69, R71, R72). -/
def decode (W : Widths) (w : Nat) : Decoded :=
  if bitField w W.resLo W.resW ≠ 0 then .illegal .reservedBits
  else match Opcode.ofCode (bitField w W.opLo opcW) with
    | none => .illegal .unknownOpcode
    | some op => .instr (Instr.make op (wordFields W w))

/-- The decoder of `ABS` records (30_encoding.md R61): the opcode is one of nine names, or illegal. -/
def decodeRecord (op : Option Opcode) (f : Fields) : Decoded :=
  match op with
  | none => .illegal .unknownOpcode
  | some o => .instr (Instr.make o f)

/-- The label a store location declares, as the Loader reads it (40_startup_and_step_fsm.md R84). -/
def storeLabel (q : Params) (c : StoreWord) : Option Nat :=
  match c, q.widths with
  | .packed w, some W => wordLabel W w
  | .record _ f, none => f.label
  | _, _ => none

/-- Which fields an opcode uses as what (30_encoding.md R65): the instruction with every unused field 0, as an
assembler writes it (R70). The label stays. -/
def Instr.canonical : Instr → Instr
  | .add f => .add { f with x := 0 }
  | .tail f => .tail { f with x := 0, j := 0 }
  | .clr f => .clr { f with j := 0, y := 0 }
  | .assign f => .assign { f with j := 0 }
  | .gotoa f => .gotoa { f with x := 0, j := 0 }
  | .gotob f => .gotob { f with x := 0, j := 0 }
  | .jmpa f => .jmpa f
  | .jmpb f => .jmpb f
  | .cont f => .cont { f with x := 0, j := 0, y := 0 }

/-- The same instruction without its label. -/
def Instr.unlabelled (i : Instr) : Instr := Instr.make i.opcode { i.fields with label := none }

/-! The encoder. -/

/-- LV: 1 = this instruction declares the label in LABEL (30_encoding.md R62). -/
def lvBit (f : Fields) : Nat := if f.label.isSome then 1 else 0

/-- LABEL; an assembler writes 0 when LV = 0 (30_encoding.md R69). -/
def labelBits (f : Fields) : Nat := f.label.getD 0

/-- The concatenation of fields, the first on the most significant side; each is (width, value)
(00_scope.md, notation). -/
def concatFields : List (Nat × Nat) → Nat :=
  List.foldl (fun acc part => acc * 2 ^ part.1 + part.2) 0

/-- The word of a well-formed instruction: {LV, RES = 0, LABEL, X, OPCODE, J, Y} (30_encoding.md R62, R63). -/
def encode (W : Widths) (i : Instr) : Nat :=
  concatFields [(1, lvBit i.fields), (W.resW, 0), (W.lblW, labelBits i.fields), (W.regW, i.fields.x),
    (opcW, i.opcode.code), (W.symW, i.fields.j), (W.yW, i.fields.y)]

/-- The instruction the decoder reads from a `REF32` word numbered as spec/opcode_table.json numbers it: the
block is word addressed and has no byte order (20_memory.md R44), so the word is the number itself. -/
def decodeTableWord (nbits w : Nat) : Option Instr :=
  if w % 2 ^ nbits < 2 ^ ref32Widths.wordW then
    match decode ref32Widths (w % 2 ^ nbits) with
    | .instr i => some i
    | .illegal _ => none
  else none

end Sys2Proof
end

