-- ==== Sys2Proof/Machine/State.lean ====
section
/-! DEFINITION. The machine's state as plain data (10_state.md), what the host presents to it
(40_startup_and_step_fsm.md R80), and the reasons a step can stop. -/

namespace Sys2Proof.Machine

/-- PHASE (10_state.md R25): codes 0, 1, 2; the code 3 is never produced. -/
inductive Phase where
  | idle | run | halted
  deriving DecidableEq, Repr

/-- CAUSE (10_state.md R26, 60_exceptions.md R150): codes 0 to 11 in this order. -/
inductive Cause where
  | none | clean | alphabetError | duplicateLabelError | missingLabelError | directionViolationError
  | pcOutOfRangeError | stepLimitExceededError | illegalInstruction | operandError | capacityError | configError
  deriving DecidableEq, Repr

/-- INFO_A, INFO_B, INFO_C, INFO_D (10_state.md R27). -/
structure Info where
  a : Nat
  b : Nat
  c : Nat
  d : Nat
  deriving DecidableEq, Repr

/-- The direction of a jump (42_jumps.md R121): A = the target must be strictly earlier, B = strictly later. -/
inductive Dir where
  | earlier | later
  deriving DecidableEq, Repr

/-- The two fields that can name a register (30_encoding.md R65). -/
inductive RegField where
  | x | y
  deriving DecidableEq, Repr

/-- A reason a run ends, with what its INFO carries: one constructor per row of 60_exceptions.md R151. -/
inductive Halt where
  /-- CONTINUE (43_halt.md R140) -/
  | clean
  /-- input validation (40_startup_and_step_fsm.md R83) -/
  | alphabetInput (reg index value : Nat)
  /-- ADD (41_sequence_ops.md R110) -/
  | alphabetAdd (pc symbol : Nat)
  /-- the Loader (40_startup_and_step_fsm.md R84) -/
  | duplicateLabel (label first second : Nat)
  /-- the jump arbiter (42_jumps.md R120) -/
  | missingLabel (label pc : Nat)
  /-- the jump arbiter (42_jumps.md R120, R121) -/
  | directionViolation (dir : Dir) (label source target : Nat)
  /-- the PC range check (40_startup_and_step_fsm.md R92) -/
  | pcOutOfRange (pc progLen : Nat)
  /-- the step counter check (40_startup_and_step_fsm.md R96) -/
  | stepLimitExceeded (count limit : Nat)
  /-- decode (30_encoding.md R71, R72) -/
  | illegalInstruction (pc word : Nat)
  /-- decode (40_startup_and_step_fsm.md R94) -/
  | operand (pc : Nat) (field : RegField) (value : Nat)
  /-- ADD (41_sequence_ops.md R110) -/
  | capacity (pc reg : Nat)
  /-- the configuration check (40_startup_and_step_fsm.md R82) -/
  | config (code reg : Nat)
  deriving DecidableEq, Repr

/-- One trace entry: PC and a copy of R[1..P] at the top of a step (10_state.md R30). -/
structure Snapshot where
  pc   : Nat
  regs : List Seq
  deriving DecidableEq, Repr

/-- What the host presents with a `start` (70_reset_and_hazards.md R193): the values on the configuration
ports, the program it has placed in the store at positions 1, 2, .., and the sequences on the input port. -/
structure Launch where
  n        : Nat
  p        : Nat
  k        : Nat
  maxSteps : Nat
  progLen  : Nat
  program  : List StoreWord
  inputs   : List Seq
  deriving DecidableEq, Repr

/-- What the host does at the block's ports before the block's next own step (log entry 3). -/
inductive HostEvent where
  /-- nothing: the block takes one step of its own -/
  | quiet
  /-- a pulse on `start` (40_startup_and_step_fsm.md R81) -/
  | start (l : Launch)
  /-- `reset` is asserted (70_reset_and_hazards.md R190) -/
  | reset
  deriving DecidableEq, Repr

/-- Everything the spec gives the machine (10_state.md), with the program store it reads and what the host
does next. INVENTORY.md, "State", names the rule, the width and the reset value of each field. Counts, positions
and symbols are natural numbers: no arithmetic of this hardware wraps (00_scope.md R5). -/
structure State where
  /-- the instance parameters, fixed for one block: no step writes them (00_scope.md R4) -/
  params   : Params
  /-- N, latched (10_state.md R24) -/
  n        : Nat
  /-- P, latched -/
  p        : Nat
  /-- K, latched -/
  k        : Nat
  /-- MAX_STEPS, latched -/
  maxSteps : Nat
  /-- PROG_LEN, latched -/
  progLen  : Nat
  /-- PHASE (10_state.md R25) -/
  phase    : Phase
  /-- CAUSE (10_state.md R26) -/
  cause    : Cause
  /-- INFO_A..D (10_state.md R27) -/
  info     : Info
  /-- OUT_VALID (10_state.md R28) -/
  outValid : Bool
  /-- PC (10_state.md R16) -/
  pc       : Nat
  /-- STEPCNT (10_state.md R19) -/
  stepcnt  : Nat
  /-- R[1], .., R[P] in this order (10_state.md R10) -/
  bank     : List Seq
  /-- LIDX (10_state.md R21) -/
  lidx     : Lidx
  /-- TRACE, oldest snapshot first (10_state.md R30) -/
  trace    : List Snapshot
  /-- the program store, outside the block and read-only to it (20_memory.md R40) -/
  store    : Memory
  /-- the host's next actions, one before each step; empty: the host is quiet from now on (log entry 3) -/
  host     : List HostEvent
  deriving DecidableEq, Repr

/-- The machine stops: no transition has a meaning. No rule of the spec stops the machine so; every exception
it describes is a next state in phase HALTED. -/
inductive Fault where
  /-- raised by fetch when the store holds no instruction word at the position PC, in 1..PROG_LEN ("ProgRead(pos)
  is defined only for 1 ≤ pos ≤ PROG_LEN", 20_memory.md R40). Safe: a launch that could lead here is refused
  (`programStoreShort`), so only a state that no accepted `start` leaves can reach it (log entry 8). -/
  | noWordAt (pos : Nat)
  deriving DecidableEq, Repr

/-- The model gives no meaning. The last three are launches the spec puts outside the host's contract and asks a
model to refuse. -/
inductive Refusal where
  /-- an instruction that has no meaning yet. Raised by the dispatcher only. Safe. -/
  | notModelled (mnemonic : String)
  /-- raised by an accepted `start` that presents a value the unsigned ports or the store of the instance cannot
  carry (93_implementation_defined.md, row 17; log entry 5). Safe. -/
  | launchOffPorts
  /-- raised by an accepted `start` with a number of input sequences other than N (20_memory.md R42). Safe. -/
  | inputCountMismatch (presented n : Nat)
  /-- raised by an accepted `start`, after the configuration check and the input validation and before the Loader
  reads a label, when the store holds fewer than PROG_LEN words (70_reset_and_hazards.md R193: the host must guarantee
  it; log entry 6). Safe. -/
  | programStoreShort (held progLen : Nat)
  deriving DecidableEq, Repr

/-- INFO when no halt has written it. -/
def Info.zero : Info := { a := 0, b := 0, c := 0, d := 0 }

/-- The state `reset` puts a block of parameters `q` in (10_state.md R34, 70_reset_and_hazards.md R190). The
program store and the host's next actions are outside the block, and `reset` does not touch them. -/
def State.afterReset (q : Params) (store : Memory) (host : List HostEvent) : State :=
  { params := q
    n := 0, p := 0, k := 0, maxSteps := 0, progLen := 0
    phase := .idle, cause := .none, info := Info.zero, outValid := false
    pc := 1, stepcnt := 0
    bank := [], lidx := [], trace := []
    store := store, host := host }

/-- The machine right after hardware reset, nothing placed in the store and the host quiet (10_state.md R34;
log entries 1, 2 and 3 for `params`, `store` and `host`). -/
def State.reset : State := State.afterReset Config.params [] []

end Sys2Proof.Machine
end

