-- ==== Sys2Proof/Machine/Ops.lean ====
section
/-! DEFINITION. The named operations on tables, the register bank, sequences and the program counter; taking
a halt (the block's one exception entry, 60_exceptions.md R160). -/

namespace Sys2Proof.Machine

/-! Tables: the program store and the label index. -/

/-- The value a table lists for a key. -/
def Table.get {α : Type} (t : Table α) (key : Nat) : Option α :=
  match t with
  | [] => none
  | (k, v) :: rest => if k = key then some v else Table.get rest key

/-- List a value for a key, keeping the keys strictly rising. -/
def Table.put {α : Type} (t : Table α) (key : Nat) (v : α) : Table α :=
  match t with
  | [] => [(key, v)]
  | (k, w) :: rest =>
    if key < k then (key, v) :: (k, w) :: rest
    else if key = k then (key, v) :: rest
    else (k, w) :: Table.put rest key v

/-- The canonical form of a table: keys strictly rising. An unlisted key reads as nothing, so no listed entry
can equal what an unlisted key reads as. -/
abbrev Table.Sorted {α : Type} (t : Table α) : Prop := t.Pairwise (fun a b => a.1 < b.1)

/-- The program store's canonical form; position 0 is never used (20_memory.md R47). -/
def Memory.wf (m : Memory) : Bool := decide (Table.Sorted m) && m.all (fun c => decide (1 ≤ c.1))

/-- The label index's canonical form. -/
def Lidx.wf (ix : Lidx) : Bool := decide (Table.Sorted ix)

/-- `ProgRead(pos)` (00_scope.md, notation). -/
def Memory.read (m : Memory) (pos : Nat) : Option StoreWord := Table.get m pos

/-- The host writes one position of the store; position 0 does not exist (20_memory.md R43, R47). -/
def Memory.write (m : Memory) (pos : Nat) (c : StoreWord) : Memory :=
  if pos = 0 then m else Table.put m pos c

/-- The store that holds a sequence of instructions from position `pos` on. -/
def Memory.placeFrom (pos : Nat) : List StoreWord → Memory
  | [] => []
  | c :: rest => (pos, c) :: Memory.placeFrom (pos + 1) rest

/-- The store as the host fills it: the program at positions 1, 2, .. (70_reset_and_hazards.md R193). -/
def Memory.ofProgram (program : List StoreWord) : Memory := Memory.placeFrom 1 program

/-! Sequences: the datapath of 10_state.md R12. -/

/-- append at the end -/
def seqAppend (v : Seq) (a : Nat) : Seq := v ++ [a]

/-- remove the first symbol; an empty sequence stays empty -/
def seqPop (v : Seq) : Seq := v.drop 1

/-- clear -/
def seqClear : Seq := []

/-! The register bank (10_state.md R10): there is no register 0. -/

/-- Read R[i]'s whole sequence. An index that names no register reads the empty sequence; no instruction reads
one (log entry 13). -/
def State.readReg (s : State) : Nat → Seq
  | 0 => []
  | i + 1 => s.bank.getD i []

/-- Replace R[i]'s sequence by a value: bank and value share nothing (10_state.md R12). An index that names no
register leaves the bank as it is; no instruction writes one (log entry 13). -/
def State.writeReg (s : State) (i : Nat) (v : Seq) : State :=
  match i with
  | 0 => s
  | i + 1 => { s with bank := s.bank.set i v }

/-- `pc <- target`. -/
def State.setPc (s : State) (pos : Nat) : State := { s with pc := pos }

/-- `pc <- PC + 1`. -/
def State.nextPc (s : State) : State := s.setPc (s.pc + 1)

/-! Halt entry. -/

/-- The CAUSE of a halt (60_exceptions.md R150). -/
def Halt.cause : Halt → Cause
  | .clean => .clean
  | .alphabetInput _ _ _ => .alphabetError
  | .alphabetAdd _ _ => .alphabetError
  | .duplicateLabel _ _ _ => .duplicateLabelError
  | .missingLabel _ _ => .missingLabelError
  | .directionViolation _ _ _ _ => .directionViolationError
  | .pcOutOfRange _ _ => .pcOutOfRangeError
  | .stepLimitExceeded _ _ => .stepLimitExceededError
  | .illegalInstruction _ _ => .illegalInstruction
  | .operand _ _ _ => .operandError
  | .capacity _ _ => .capacityError
  | .config _ _ => .configError

/-- The code of a direction in INFO_A (60_exceptions.md R151). -/
def Dir.code : Dir → Nat
  | .earlier => 0
  | .later => 1

/-- The code of a field in INFO_B (60_exceptions.md R151). -/
def RegField.code : RegField → Nat
  | .x => 0
  | .y => 1

/-- The INFO of a halt, row by row of 60_exceptions.md R151. -/
def Halt.info : Halt → Info
  | .clean => Info.zero
  | .alphabetInput reg index value => { a := 0, b := reg, c := index, d := value }
  | .alphabetAdd pc symbol => { a := 1, b := pc, c := 0, d := symbol }
  | .duplicateLabel label first second => { a := label, b := first, c := second, d := 0 }
  | .missingLabel label pc => { a := label, b := pc, c := 0, d := 0 }
  | .directionViolation dir label source target => { a := dir.code, b := label, c := source, d := target }
  | .pcOutOfRange pc progLen => { a := pc, b := progLen, c := 0, d := 0 }
  | .stepLimitExceeded count limit => { a := count, b := limit, c := 0, d := 0 }
  | .illegalInstruction pc word => { a := pc, b := word, c := 0, d := 0 }
  | .operand pc field value => { a := pc, b := field.code, c := value, d := 0 }
  | .capacity pc reg => { a := pc, b := reg, c := 0, d := 0 }
  | .config code reg => { a := code, b := reg, c := 0, d := 0 }

/-- A value fits an INFO register of the instance (10_state.md R27). -/
def fitsInfo (q : Params) (v : Nat) : Bool :=
  match q.widths with
  | none => true
  | some W => decide (v < 2 ^ W.infoW)

/-- One INFO register's new value: the detail itself where it fits the register, else a free value of the
register's width (log entry 9). -/
def infoField (q : Params) (v : Nat) : Nat :=
  match q.widths with
  | none => v
  | some W => if v < 2 ^ W.infoW then v else (Config.wideInfo W.infoW v).toNat

/-- INFO_A..D as written by a halt. -/
def Info.latch (q : Params) (i : Info) : Info :=
  { a := infoField q i.a, b := infoField q i.b, c := infoField q i.c, d := infoField q i.d }

/-- TAKING A HALT, `raise <Cause>(info)` and the clean halt alike: "PHASE <- HALTED; CAUSE <- the code of rule
R150; INFO_A..D <- the fields of rule R151. Nothing else changes" (60_exceptions.md R160). There is no return
from it (R168). -/
def State.raiseHalt (s : State) (h : Halt) : State :=
  { s with phase := .halted, cause := h.cause, info := h.info.latch s.params }

/-! The parts of a step that stand around the instruction. -/

/-- Item 1: `emit((PC, copy of R[1..P]))` (40_startup_and_step_fsm.md R91). -/
def State.emit (s : State) : State :=
  { s with trace := s.trace ++ [{ pc := s.pc, regs := s.bank }] }

/-- STEPCNT <- STEPCNT + 1. -/
def State.countUp (s : State) : State := { s with stepcnt := s.stepcnt + 1 }

/-- `reset` (70_reset_and_hazards.md R190): every register of the block to the value of 10_state.md R34. -/
def State.assertReset (s : State) : State := State.afterReset s.params s.store s.host

end Sys2Proof.Machine
end

