-- ==== Sys2Proof/Machine/Flags.lean ====
section
/-! DEFINITION. The conditions the block computes. It has no status flags: a condition is computed in the step
that uses it and stored nowhere (10_state.md R31). All comparisons are of unsigned numbers
(40_startup_and_step_fsm.md R101). -/

namespace Sys2Proof.Machine

/-- `j` is a symbol of the alphabet 1..K. -/
def isSymbol (k j : Nat) : Bool := decide (1 ≤ j) && decide (j ≤ k)

/-- `len(R[Y]) >= CAP`, never true when CAP is unbounded (41_sequence_ops.md R110). -/
def atCapacity (q : Params) (v : Seq) : Bool :=
  match q.cap with
  | none => false
  | some cap => decide (cap ≤ v.length)

/-- The guard of JMPA and JMPB: the register is non-empty and its first symbol equals `j` (42_jumps.md R123). -/
def guardHolds (v : Seq) (j : Nat) : Bool :=
  match v with
  | [] => false
  | a :: _ => decide (a = j)

/-- The direction test, against the jump's own PC (42_jumps.md R121, 70_reset_and_hazards.md R200). -/
def directionOk (dir : Dir) (target pc : Nat) : Bool :=
  match dir with
  | .earlier => decide (target < pc)
  | .later => decide (pc < target)

/-- Item 2's range test: PC < 1 or PC > PROG_LEN (40_startup_and_step_fsm.md R92). -/
def State.pcOutside (s : State) : Bool := decide (s.pc < 1) || decide (s.progLen < s.pc)

end Sys2Proof.Machine
end

