-- ==== Sys2Proof/Machine/Operands.lean ====
section
/-! DEFINITION. The operand forms: register operands and their check at decode (30_encoding.md R66,
40_startup_and_step_fsm.md R94), label operands and the jump arbiter that resolves them (30_encoding.md R67,
42_jumps.md R120). A symbol operand is the number `j` itself (30_encoding.md R68). -/

namespace Sys2Proof.Machine

/-- The value of a register field. -/
def RegField.value (f : Fields) : RegField → Nat
  | .x => f.x
  | .y => f.y

/-- `v` names a register: 1 ≤ v ≤ P (30_encoding.md R66). -/
def namesReg (p v : Nat) : Bool := decide (1 ≤ v) && decide (v ≤ p)

/-- `regfields(opcode)`: the register-index fields an opcode uses, in the order they are checked
(40_startup_and_step_fsm.md R94). A jump's Y is a label and is not among them. -/
def regFields : Opcode → List RegField
  | .add => [.y]
  | .tail => [.y]
  | .clr => [.x]
  | .assign => [.x, .y]
  | .gotoa => []
  | .gotob => []
  | .jmpa => [.x]
  | .jmpb => [.x]
  | .cont => []

/-- The first field of the list that names no register. -/
def firstBadField (p : Nat) (f : Fields) : List RegField → Option RegField
  | [] => none
  | q :: rest => if namesReg p (q.value f) then firstBadField p f rest else some q

/-- The operand check: OperandError for the first bad field, before any effect; else `done`, the state the
instruction itself leaves (40_startup_and_step_fsm.md R94, 60_exceptions.md R158). -/
def State.checkRegs (s : State) (op : Opcode) (f : Fields) (done : State) : State :=
  match firstBadField s.p f (regFields op) with
  | some q => s.raiseHalt (.operand s.pc q (q.value f))
  | none => done

/-- `Resolve(Y, dir)`: a label and a direction to a target position, or the halt that is raised; the label
before the direction (42_jumps.md R120). -/
def State.resolve (s : State) (label : Nat) (dir : Dir) : Except Halt Nat :=
  match Table.get s.lidx label with
  | none => .error (.missingLabel label s.pc)
  | some t =>
    if directionOk dir t s.pc then .ok t
    else .error (.directionViolation dir label s.pc t)

/-- A jump that is to be taken: PC to the target, or the arbiter's halt (42_jumps.md R120, R124, R125). -/
def State.takeJump (s : State) (label : Nat) (dir : Dir) : State :=
  match s.resolve label dir with
  | .ok t => s.setPc t
  | .error h => s.raiseHalt h

/-- A conditional jump: taken when the guard holds on R[X], else PC + 1 and the arbiter is not consulted
(42_jumps.md R123, R126, R127). -/
def State.condJump (s : State) (f : Fields) (dir : Dir) : State :=
  if guardHolds (s.readReg f.x) f.j then s.takeJump f.y dir else s.nextPc

end Sys2Proof.Machine
end

