-- ==== Sys2Proof/Machine/Finish.lean ====
section
/-! DEFINITION. The halt instruction CONTINUE (43_halt.md). -/

namespace Sys2Proof.Machine

/-- CONTINUE: end the run cleanly. PC, the bank, STEPCNT, LIDX and TRACE stay as they are, and no field of the
instruction is used (43_halt.md R140). -/
def execContinue (f : Fields) (s : State) : Host.Outcome State Fault Refusal :=
  .next (s.checkRegs .cont f (s.raiseHalt .clean))

end Sys2Proof.Machine
end

