-- ==== Sys2Proof/Machine/Jump.lean ====
section
/-! DEFINITION. The jump instructions GOTOA, GOTOB, JMPA, JMPB (42_jumps.md). -/

namespace Sys2Proof.Machine

/-- GOTOA: jump to the earlier position that bears label Y (42_jumps.md R124). -/
def execGotoa (f : Fields) (s : State) : Host.Outcome State Fault Refusal :=
  .next (s.checkRegs .gotoa f (s.takeJump f.y .earlier))

/-- GOTOB: jump to the later position that bears label Y (42_jumps.md R125). -/
def execGotob (f : Fields) (s : State) : Host.Outcome State Fault Refusal :=
  .next (s.checkRegs .gotob f (s.takeJump f.y .later))

/-- JMPA: as GOTOA if register X begins with symbol j, else PC + 1 (42_jumps.md R126). -/
def execJmpa (f : Fields) (s : State) : Host.Outcome State Fault Refusal :=
  .next (s.checkRegs .jmpa f (s.condJump f .earlier))

/-- JMPB: as GOTOB if register X begins with symbol j, else PC + 1 (42_jumps.md R127). -/
def execJmpb (f : Fields) (s : State) : Host.Outcome State Fault Refusal :=
  .next (s.checkRegs .jmpb f (s.condJump f .later))

end Sys2Proof.Machine
end

