-- ==== Sys2Proof/Machine/Sequence.lean ====
section
/-! DEFINITION. The sequence instructions ADD, TAIL, CLR, ASSIGN (41_sequence_ops.md). -/

namespace Sys2Proof.Machine

/-- What ADD itself does, once Y names a register: the alphabet check, the capacity check, then the append
(41_sequence_ops.md R110). -/
def State.appendSymbol (s : State) (y j : Nat) : State :=
  if isSymbol s.k j then
    if atCapacity s.params (s.readReg y) then s.raiseHalt (.capacity s.pc y)
    else (s.writeReg y (seqAppend (s.readReg y) j)).nextPc
  else s.raiseHalt (.alphabetAdd s.pc j)

/-- ADD: append symbol j to the end of register Y (41_sequence_ops.md R110). -/
def execAdd (f : Fields) (s : State) : Host.Outcome State Fault Refusal :=
  .next (s.checkRegs .add f (s.appendSymbol f.y f.j))

/-- TAIL: remove the first symbol of register Y; an empty register stays empty (41_sequence_ops.md R111). -/
def execTail (f : Fields) (s : State) : Host.Outcome State Fault Refusal :=
  .next (s.checkRegs .tail f (s.writeReg f.y (seqPop (s.readReg f.y))).nextPc)

/-- CLR: make register X empty (41_sequence_ops.md R112). -/
def execClr (f : Fields) (s : State) : Host.Outcome State Fault Refusal :=
  .next (s.checkRegs .clr f (s.writeReg f.x seqClear).nextPc)

/-- ASSIGN: replace register X by a value copy of register Y (41_sequence_ops.md R113). -/
def execAssign (f : Fields) (s : State) : Host.Outcome State Fault Refusal :=
  .next (s.checkRegs .assign f (s.writeReg f.x (s.readReg f.y)).nextPc)

end Sys2Proof.Machine
end

