-- ==== Sys2Proof/Machine/Dispatch.lean ====
section
/-! DEFINITION. Item 4 of the step, dispatch by opcode (40_startup_and_step_fsm.md R95). -/

namespace Sys2Proof.Machine

def exec (i : Instr) (s : State) : Host.Outcome State Fault Refusal :=
  match i with
  | .add f => Sys2Proof.Machine.execAdd f s
  | .tail f => Sys2Proof.Machine.execTail f s
  | .clr f => Sys2Proof.Machine.execClr f s
  | .assign f => Sys2Proof.Machine.execAssign f s
  | .gotoa f => Sys2Proof.Machine.execGotoa f s
  | .gotob f => Sys2Proof.Machine.execGotob f s
  | .jmpa f => Sys2Proof.Machine.execJmpa f s
  | .jmpb f => Sys2Proof.Machine.execJmpb f s
  | .cont f => Sys2Proof.Machine.execContinue f s

end Sys2Proof.Machine
end

