-- ==== Sys2Proof/Machine/Start.lean ====
section
/-! DEFINITION. The start sequence: configuration check, input validation, Loader, seeding
(40_startup_and_step_fsm.md R81 to R86), one transition (R86). -/

namespace Sys2Proof.Machine

/-- The launch can be presented at all: each value fits its unsigned port (00_scope.md R4) and each word of the
program is one the store can hold. The input port also carries symbols of SYM_W bits (20_memory.md R42). -/
def Launch.onPorts (q : Params) (l : Launch) : Bool :=
  l.program.all (StoreWord.wf q) &&
    match q.widths with
    | none => true
    | some W =>
      decide (l.n < 2 ^ W.regW) && decide (l.p < 2 ^ W.regW) && decide (l.k < 2 ^ W.symW) &&
      decide (l.maxSteps < 2 ^ W.cntW) && decide (l.progLen < 2 ^ W.pcW) &&
      l.inputs.all (fun v => v.all (fun a => decide (a < 2 ^ W.symW)))

/-- PROG_LEN > PROG_CAP (40_startup_and_step_fsm.md R82, test 4). -/
def overProgCap (q : Params) (progLen : Nat) : Bool :=
  match q.widths with
  | none => false
  | some W => decide (W.progCap < progLen)

/-- MAX_STEPS > 2^CNT_W - 2 (40_startup_and_step_fsm.md R82, test 5). -/
def overStepCap (q : Params) (maxSteps : Nat) : Bool :=
  match q.widths with
  | none => false
  | some W => decide (2 ^ W.cntW - 2 < maxSteps)

/-- The least r, counted from `reg`, whose input sequence is longer than CAP (R82, test 6). -/
def firstTooLong (q : Params) (reg : Nat) : List Seq → Option Nat
  | [] => none
  | v :: rest =>
    match q.cap with
    | none => none
    | some cap => if cap < v.length then some reg else firstTooLong q (reg + 1) rest

/-- The configuration check: the sub-code of the first failed test and, for sub-code 6, the register index
(40_startup_and_step_fsm.md R82, 60_exceptions.md R151). -/
def configFailure (q : Params) (l : Launch) : Option (Nat × Nat) :=
  if l.p < 1 then some (1, 0)
  else if l.p < l.n then some (2, 0)
  else if l.k < 1 then some (3, 0)
  else if overProgCap q l.progLen then some (4, 0)
  else if overStepCap q l.maxSteps then some (5, 0)
  else (firstTooLong q 1 l.inputs).map (fun r => (6, r))

/-- The first element, counted from `index`, that is no symbol, with its value. -/
def firstBadSymbol (k index : Nat) : Seq → Option (Nat × Nat)
  | [] => none
  | a :: rest => if isSymbol k a then firstBadSymbol k (index + 1) rest else some (index, a)

/-- Input validation: register (counted from `reg`), index and value of the first element that is no symbol,
registers ascending, elements ascending (40_startup_and_step_fsm.md R83). -/
def firstBadInput (k reg : Nat) : List Seq → Option (Nat × Nat × Nat)
  | [] => none
  | v :: rest =>
    match firstBadSymbol k 0 v with
    | some (index, a) => some (reg, index, a)
    | none => firstBadInput k (reg + 1) rest

/-- How loading ends. -/
inductive LoadResult where
  /-- every label is in the index -/
  | indexed (ix : Lidx)
  /-- `label` was in the index, at `first`, when `second` declared it -/
  | duplicate (label first second : Nat) (ix : Lidx)
  deriving DecidableEq, Repr

/-- The label that position `pos` of the store declares. -/
def labelAt (q : Params) (m : Memory) (pos : Nat) : Option Nat :=
  (Memory.read m pos).bind (storeLabel q)

/-- The Loader over `count` positions from `pos` on, ascending; it reads labels only
(40_startup_and_step_fsm.md R84, 30_encoding.md R72). -/
def loadLabels (q : Params) (m : Memory) (pos : Nat) : Nat → Lidx → LoadResult
  | 0, ix => .indexed ix
  | count + 1, ix =>
    match labelAt q m pos with
    | none => loadLabels q m (pos + 1) count ix
    | some l =>
      match Table.get ix l with
      | some first => .duplicate l first pos ix
      | none => loadLabels q m (pos + 1) count (Table.put ix l pos)

/-- Discard all state of any earlier run and latch the configuration (40_startup_and_step_fsm.md R81). The
program is in the store as the host placed it. -/
def State.latchLaunch (s : State) (l : Launch) : State :=
  { s with
    n := l.n, p := l.p, k := l.k, maxSteps := l.maxSteps, progLen := l.progLen
    cause := .none, info := Info.zero, outValid := false
    pc := 1, stepcnt := 0
    bank := List.replicate l.p [], lidx := [], trace := []
    store := Memory.ofProgram l.program }

/-- The registers at the first step: the first N hold the inputs, the rest are empty (R85). -/
def seedBank (l : Launch) : List Seq := l.inputs ++ List.replicate (l.p - l.inputs.length) []

/-- Seeding (40_startup_and_step_fsm.md R85). -/
def State.seed (s : State) (l : Launch) : State :=
  { s with bank := seedBank l, pc := 1, stepcnt := 0, outValid := true, phase := .run }

/-- The Loader and the seeding, after the checks (R84, R85). -/
def State.loadAndSeed (s : State) (l : Launch) : State :=
  match loadLabels s.params s.store 1 s.progLen [] with
  | .duplicate label first second ix => ({ s with lidx := ix }).raiseHalt (.duplicateLabel label first second)
  | .indexed ix => ({ s with lidx := ix }).seed l

/-- An accepted `start` (40_startup_and_step_fsm.md R81 to R86): the first failure wins, ConfigError before
AlphabetError before DuplicateLabelError (60_exceptions.md R165). Launches outside the host's contract are refused
(log entries 5 and 6). DESIGN CHOICE (log entry 6): a store shorter than PROG_LEN is refused before the Loader runs,
so no DuplicateLabelError is reported of it even where the words it holds repeat a label. -/
def State.acceptStart (s : State) (l : Launch) : Host.Outcome State Fault Refusal :=
  if !l.onPorts s.params then .refused .launchOffPorts
  else if l.inputs.length ≠ l.n then .refused (.inputCountMismatch l.inputs.length l.n)
  else match configFailure s.params l with
    | some (code, reg) => .next ((s.latchLaunch l).raiseHalt (.config code reg))
    | none => match firstBadInput l.k 1 l.inputs with
      | some (reg, index, a) => .next ((s.latchLaunch l).raiseHalt (.alphabetInput reg index a))
      | none =>
        if l.program.length < l.progLen then .refused (.programStoreShort l.program.length l.progLen)
        else .next ((s.latchLaunch l).loadAndSeed l)

/-- A pulse on `start`: accepted in IDLE and HALTED, ignored in RUN (40_startup_and_step_fsm.md R81). -/
def State.pulseStart (s : State) (l : Launch) : Host.Outcome State Fault Refusal :=
  match s.phase with
  | .run => .next s
  | .idle => s.acceptStart l
  | .halted => s.acceptStart l

end Sys2Proof.Machine
end

