-- ==== Sys2Proof/Machine/Protocol.lean ====
section
/-! DEFINITION. The program counter state machine around the instruction: the five-item step
(40_startup_and_step_fsm.md R90), what the host does between two steps, and the placing of a word for the next
fetch. -/

namespace Sys2Proof.Machine

/-- What item 3 yields: the word as INFO_B would carry it, and the decoder's verdict. -/
structure Fetched where
  word    : Nat
  decoded : Decoded
  deriving DecidableEq, Repr

/-- Item 3, fetch and decode of the one word at position PC (40_startup_and_step_fsm.md R93): a packed word by
the instance's layout, a record as it is. A position that holds no word in the instance's form gives nothing. -/
def State.fetch (s : State) : Option Fetched :=
  match Memory.read s.store s.pc, s.params.widths with
  | some (.packed w), some W => some { word := w, decoded := decode W w }
  | some (.record op f), none => some { word := Config.recordWord f, decoded := decodeRecord op f }
  | _, _ => none

/-- Item 5, the step counter: reached only when the instruction completed, that is, when the run has not ended;
the comparison is strict (40_startup_and_step_fsm.md R96). -/
def State.countStep (s : State) : State :=
  match s.phase with
  | .run =>
    if s.maxSteps < s.countUp.stepcnt then
      s.countUp.raiseHalt (.stepLimitExceeded s.countUp.stepcnt s.maxSteps)
    else s.countUp
  | .idle => s
  | .halted => s

/-- Items 4 and 5 on a decoded instruction. -/
def State.runInstr (s : State) (i : Instr) : Host.Outcome State Fault Refusal :=
  match exec i s with
  | .next t => .next t.countStep
  | .fault r => .fault r
  | .refused r => .refused r

/-- `Step()` (40_startup_and_step_fsm.md R90). -/
def State.protocolStep (s : State) : Host.Outcome State Fault Refusal :=
  if s.emit.pcOutside then .next (s.emit.raiseHalt (.pcOutOfRange s.pc s.progLen))
  else match s.emit.fetch with
    | none => .fault (.noWordAt s.pc)
    | some fetched => match fetched.decoded with
      | .illegal _ => .next (s.emit.raiseHalt (.illegalInstruction s.pc fetched.word))
      | .instr i => s.emit.runInstr i

/-- The block's own transition: a step while PHASE = RUN; in IDLE and HALTED no step is enabled and every
register keeps its value (40_startup_and_step_fsm.md R90, R100; log entry 4). -/
def State.blockStep (s : State) : Host.Outcome State Fault Refusal :=
  match s.phase with
  | .run => s.protocolStep
  | .idle => .next s
  | .halted => .next s

/-- The host's next action has been taken. -/
def State.withHost (s : State) (rest : List HostEvent) : State := { s with host := rest }

/-- One transition of the machine: the host's next action if it has one, else the block's own
(log entry 3). -/
def State.transition (s : State) : Host.Outcome State Fault Refusal :=
  match s.host with
  | [] => s.blockStep
  | .quiet :: rest => (s.withHost rest).blockStep
  | .start l :: rest => (s.withHost rest).pulseStart l
  | .reset :: rest => .next (s.withHost rest).assertReset

/-- The launch of the one-word program `w` with the widest `REF32` configuration (log entry 7). -/
def oneWordLaunch (w : Nat) : Launch :=
  { n := 0, p := 15, k := 15, maxSteps := 4294967294, progLen := 1
    program := [.packed w], inputs := [] }

/-- The state whose next step fetches and runs the `REF32` word `w`: in RUN the word stands at position PC;
otherwise the one-word program has just been started. The instance takes the widths of `REF32`, the only one that has
such words, and the host is quiet (log entry 7). -/
def State.placeFetchWord (s : State) (w : Nat) : State :=
  let s := { s with params := { s.params with widths := some ref32Widths }, host := [] }
  match s.phase with
  | .run => { s with store := Memory.write s.store s.pc (.packed w), progLen := max s.progLen s.pc }
  | .idle => (s.latchLaunch (oneWordLaunch w)).loadAndSeed (oneWordLaunch w)
  | .halted => (s.latchLaunch (oneWordLaunch w)).loadAndSeed (oneWordLaunch w)

end Sys2Proof.Machine
end

