-- ==== Sys2Proof/Machine/Step.lean ====
section
/-! DEFINITION. The step function, and the state that runs a given word next. -/

namespace Sys2Proof.Machine

/-- One step of the machine (40_startup_and_step_fsm.md R81, R90, R100; 70_reset_and_hazards.md R190). -/
def step (s : State) : Host.Outcome State Fault Refusal := s.transition

/-- The state whose next step runs the table word `w` of `nbits` bits; every bit above is 0 (log entry 7). -/
def State.withFetchWord (s : State) (nbits w : Nat) : State := s.placeFetchWord (w % 2 ^ nbits)

end Sys2Proof.Machine
end

