-- ==== Sys2Proof/Machine/Control.lean ====
section
/-! DEFINITION. The decoder's control word and the datapath it drives: the block as its four parts
(00_scope.md R1, 30_encoding.md R75). The instructions' meanings do not use it; that the two agree is a statement. -/

namespace Sys2Proof.Machine

/-- What the sequence datapath is told to do. -/
inductive SeqOp where
  | none | append | pop | clear | copy
  deriving DecidableEq, Repr

/-- When the jump arbiter is consulted. -/
inductive JumpWhen where
  | never | always | ifGuard
  deriving DecidableEq, Repr

/-- The control word of 30_encoding.md R75. -/
structure Control where
  rsel  : Option RegField
  wsel  : Option RegField
  seqOp : SeqOp
  jmp   : JumpWhen
  dir   : Dir
  halt  : Bool
  deriving DecidableEq, Repr

/-- The decoder's table, row by row (30_encoding.md R75, 10_state.md R13). Where the table has no direction, the
signal is not read. -/
def controlWord : Opcode → Control
  | .add    => ⟨some .y, some .y, .append, .never,   .earlier, false⟩
  | .tail   => ⟨some .y, some .y, .pop,    .never,   .earlier, false⟩
  | .clr    => ⟨none,    some .x, .clear,  .never,   .earlier, false⟩
  | .assign => ⟨some .y, some .x, .copy,   .never,   .earlier, false⟩
  | .gotoa  => ⟨none,    none,    .none,   .always,  .earlier, false⟩
  | .gotob  => ⟨none,    none,    .none,   .always,  .later,   false⟩
  | .jmpa   => ⟨some .x, none,    .none,   .ifGuard, .earlier, false⟩
  | .jmpb   => ⟨some .x, none,    .none,   .ifGuard, .later,   false⟩
  | .cont   => ⟨none,    none,    .none,   .never,   .earlier, true⟩

/-- A register field the mux selects. -/
def selects (c : Control) (q : RegField) : Bool := c.rsel = some q || c.wsel = some q

/-- The fields the mux selects, X before Y. -/
def muxFields (c : Control) : List RegField :=
  (if selects c .x then [.x] else []) ++ (if selects c .y then [.y] else [])

/-- The value the mux reads. -/
def muxRead (c : Control) (f : Fields) (s : State) : Seq :=
  match c.rsel with
  | none => []
  | some q => s.readReg (q.value f)

/-- The value the datapath makes of the value `v` read, or the halt it raises. -/
def datapath (c : Control) (f : Fields) (s : State) (v : Seq) : Except Halt Seq :=
  match c.seqOp with
  | .none => .ok v
  | .append =>
    if isSymbol s.k f.j then
      if atCapacity s.params v then .error (.capacity s.pc f.y) else .ok (seqAppend v f.j)
    else .error (.alphabetAdd s.pc f.j)
  | .pop => .ok (seqPop v)
  | .clear => .ok seqClear
  | .copy => .ok v

/-- The register write through the mux. -/
def muxWrite (c : Control) (f : Fields) (v : Seq) (s : State) : State :=
  match c.wsel with
  | none => s
  | some q => s.writeReg (q.value f) v

/-- The jump is taken, on the value `v` read. -/
def jumpTaken (c : Control) (f : Fields) (v : Seq) : Bool :=
  match c.jmp with
  | .never => false
  | .always => true
  | .ifGuard => guardHolds v f.j

/-- The next PC, or the arbiter's halt. -/
def arbiter (c : Control) (f : Fields) (s : State) (v : Seq) : Except Halt Nat :=
  if jumpTaken c f v then s.resolve f.y c.dir else .ok (s.pc + 1)

/-- The four parts driven by a control word, once the operands are known to name registers: the halt signal, the
datapath, the arbiter; the first halt wins and nothing is written with it. -/
def driveParts (c : Control) (f : Fields) (s : State) (v : Seq) : State :=
  if c.halt then s.raiseHalt .clean
  else match datapath c f s v with
    | .error h => s.raiseHalt h
    | .ok v' => match arbiter c f s v with
      | .error h => s.raiseHalt h
      | .ok t => (muxWrite c f v' s).setPc t

/-- The operand check on the fields the mux selects, then the four parts on the value it reads. -/
def driveControl (c : Control) (f : Fields) (s : State) : State :=
  match firstBadField s.p f (muxFields c) with
  | some q => s.raiseHalt (.operand s.pc q (q.value f))
  | none => driveParts c f s (muxRead c f s)

end Sys2Proof.Machine
end

