-- ==== Sys2Proof/Machine/Ports.lean ====
section
/-! DEFINITION. What the host reads: the status read port (10_state.md R29) and the result ports
(40_startup_and_step_fsm.md R80, 60_exceptions.md R162). -/

namespace Sys2Proof.Machine

/-- The code of PHASE (10_state.md R25). -/
def Phase.code : Phase → Nat
  | .idle => 0
  | .run => 1
  | .halted => 2

/-- The code of CAUSE (60_exceptions.md R150). -/
def Cause.code : Cause → Nat
  | .none => 0
  | .clean => 1
  | .alphabetError => 2
  | .duplicateLabelError => 3
  | .missingLabelError => 4
  | .directionViolationError => 5
  | .pcOutOfRangeError => 6
  | .stepLimitExceededError => 7
  | .illegalInstruction => 8
  | .operandError => 9
  | .capacityError => 10
  | .configError => 11

/-- STATUS: bits 1:0 PHASE, bit 2 OUT_VALID, bit 3 reads 0, bits 7:4 CAUSE (10_state.md R29). -/
def State.status (s : State) : BitVec 8 :=
  BitVec.ofNat 4 s.cause.code ++ BitVec.ofNat 1 0 ++ BitVec.ofBool s.outValid ++ BitVec.ofNat 2 s.phase.code

/-- The status read port: a register number to its value (10_state.md R29). A number above 11 names no register
and is not answered (log entry 14). -/
def State.readStatus (s : State) : Nat → Option Nat
  | 0 => some s.n
  | 1 => some s.p
  | 2 => some s.k
  | 3 => some s.maxSteps
  | 4 => some s.progLen
  | 5 => some s.status.toNat
  | 6 => some s.pc
  | 7 => some s.stepcnt
  | 8 => some s.info.a
  | 9 => some s.info.b
  | 10 => some s.info.c
  | 11 => some s.info.d
  | _ => none

/-- The port `output`: R[1] (10_state.md R14). -/
def State.outputPort (s : State) : Seq := s.readReg 1

/-- The port `finalPc`. -/
def State.finalPcPort (s : State) : Nat := s.pc

/-- The port `finalRegisters`: R[1..P]. -/
def State.finalRegistersPort (s : State) : List Seq := s.bank

/-- The results of a run. -/
structure Results where
  output         : Seq
  finalPc        : Nat
  finalRegisters : List Seq
  trace          : List Snapshot
  deriving DecidableEq, Repr

/-- What the host has when it reads the results: something after a halt of a run that reached its first step, and
nothing to rely on otherwise (60_exceptions.md R162, 10_state.md R28; log entry 12). -/
def State.results (s : State) : Option Results :=
  if s.phase = .halted ∧ s.outValid = true then
    some { output := s.outputPort, finalPc := s.finalPcPort
           finalRegisters := s.finalRegistersPort, trace := s.trace }
  else none

end Sys2Proof.Machine
end

