-- ==== Sys2Proof/Safety.lean ====
section
/-! DEFINITION. The terms claims about the machine are written in: what an instruction may write, the
invariants of the machine, and what a legal run looks like. -/

namespace Sys2Proof.Machine

/-! Frames. -/

/-- The register an instruction writes (10_state.md R13). -/
def destReg : Instr → Option Nat
  | .add f => some f.y
  | .tail f => some f.y
  | .clr f => some f.x
  | .assign f => some f.x
  | .gotoa _ => none
  | .gotob _ => none
  | .jmpa _ => none
  | .jmpb _ => none
  | .cont _ => none

/-- What no instruction writes: the parameters, the latched configuration, OUT_VALID, STEPCNT, LIDX, TRACE, the
host's next actions and every location of the store. -/
structure UntouchedByInstr (s t : State) : Prop where
  params   : t.params = s.params
  n        : t.n = s.n
  p        : t.p = s.p
  k        : t.k = s.k
  maxSteps : t.maxSteps = s.maxSteps
  progLen  : t.progLen = s.progLen
  outValid : t.outValid = s.outValid
  stepcnt  : t.stepcnt = s.stepcnt
  lidx     : t.lidx = s.lidx
  trace    : t.trace = s.trace
  host     : t.host = s.host
  store    : ∀ pos, Memory.read t.store pos = Memory.read s.store pos

/-- PHASE, CAUSE and INFO as they were. -/
def SameStatus (s t : State) : Prop := t.phase = s.phase ∧ t.cause = s.cause ∧ t.info = s.info

/-- A halt was taken with nothing of the instruction done: PC and the bank as they were
(60_exceptions.md R160, R164). -/
def HaltedCleanly (s t : State) : Prop := t.phase = .halted ∧ t.pc = s.pc ∧ t.bank = s.bank

/-! What an instruction's operands name. -/

/-- Every register field the instruction uses names a register (40_startup_and_step_fsm.md R94). -/
def OperandsOk (s : State) (i : Instr) : Prop :=
  firstBadField s.p i.fields (regFields i.opcode) = none

/-- The instruction that fetch would find at a position of the store. -/
def State.instrAt (s : State) (pos : Nat) : Option Instr :=
  match (s.setPc pos).fetch with
  | some fetched => match fetched.decoded with
    | .instr i => some i
    | .illegal _ => none
  | none => none

/-- "A program all of whose words are legal and all of whose register fields are in range (a well-formed
program)" (40_startup_and_step_fsm.md R94). -/
def ProgramWf (s : State) : Prop :=
  ∀ pos, 1 ≤ pos → pos ≤ s.progLen → ∃ i, s.instrAt pos = some i ∧ OperandsOk s i

/-! Runs and starts. -/

/-- The host leaves the block alone before its next step. -/
def Quiet (s : State) : Prop := s.host = [] ∨ ∃ rest, s.host = .quiet :: rest

/-- The state with the host's next `quiet` taken, if there is one: what the block's own step starts from. -/
def State.afterQuiet (s : State) : State := s.withHost s.host.tail

/-- A run is in progress and the host leaves the block alone before its next step. -/
def Running (s : State) : Prop := s.phase = .run ∧ Quiet s

/-- PC is a position of the program (40_startup_and_step_fsm.md R92). -/
def PcInRange (s : State) : Prop := 1 ≤ s.pc ∧ s.pc ≤ s.progLen

/-- The host's next action is a `start` that is accepted and within the host's contract: the phase is not RUN, the
launch fits the ports, and it carries exactly N sequences (40_startup_and_step_fsm.md R81, 20_memory.md R42). -/
def StartPending (s : State) (l : Launch) (rest : List HostEvent) : Prop :=
  s.host = .start l :: rest ∧ s.phase ≠ .run ∧ l.onPorts s.params = true ∧ l.inputs.length = l.n

/-- Every test of the configuration check passes (40_startup_and_step_fsm.md R82). -/
def ConfigOk (q : Params) (l : Launch) : Prop :=
  1 ≤ l.p ∧ l.n ≤ l.p ∧ 1 ≤ l.k ∧
    (∀ W, q.widths = some W → l.progLen ≤ W.progCap ∧ l.maxSteps ≤ 2 ^ W.cntW - 2) ∧
    ∀ cap, q.cap = some cap → ∀ v ∈ l.inputs, v.length ≤ cap

/-- Every element of every input is a symbol (40_startup_and_step_fsm.md R83). -/
def InputsOk (l : Launch) : Prop := ∀ v ∈ l.inputs, ∀ a ∈ v, 1 ≤ a ∧ a ≤ l.k

/-- The label the instruction at a position of the launch's program declares. -/
def Launch.labelAt (q : Params) (l : Launch) (pos : Nat) : Option Nat :=
  Machine.labelAt q (Memory.ofProgram l.program) pos

/-- No two of the positions 1 .. `upTo` declare the same label (40_startup_and_step_fsm.md R84). -/
def LabelsDistinct (q : Params) (l : Launch) (upTo : Nat) : Prop :=
  ∀ lab a b, 1 ≤ a → a ≤ upTo → 1 ≤ b → b ≤ upTo →
    l.labelAt q a = some lab → l.labelAt q b = some lab → a = b

/-! The invariants. -/

/-- The program store and the label index are in their canonical form. -/
def StorageCanonical (s : State) : Prop := Memory.wf s.store = true ∧ Lidx.wf s.lidx = true

/-- The bank holds exactly P registers (10_state.md R10). -/
def BankSized (s : State) : Prop := s.bank.length = s.p

/-- The symbol invariant: every element of every register is a symbol (10_state.md R15). -/
def SymbolsOnly (s : State) : Prop := ∀ v ∈ s.bank, ∀ a ∈ v, 1 ≤ a ∧ a ≤ s.k

/-- Every register obeys CAP (10_state.md R11, 41_sequence_ops.md R113). -/
def WithinCap (s : State) : Prop := ∀ cap, s.params.cap = some cap → ∀ v ∈ s.bank, v.length ≤ cap

/-- PC is in [1, PROG_LEN + 1], and every target LIDX holds is a position of the program (10_state.md R17). -/
def PcInProgram (s : State) : Prop :=
  1 ≤ s.pc ∧ s.pc ≤ s.progLen + 1 ∧
    ∀ l t, Table.get s.lidx l = some t → 1 ≤ t ∧ t ≤ s.progLen

/-- CAUSE is NONE exactly outside HALTED, INFO is then 0, OUT_VALID is 1 in RUN and 0 in IDLE
(10_state.md R26, R27, R28). -/
def StatusAgrees (s : State) : Prop :=
  (s.cause = .none ↔ s.phase ≠ .halted) ∧ (s.phase ≠ .halted → s.info = Info.zero) ∧
    (s.phase = .run → s.outValid = true) ∧ (s.phase = .idle → s.outValid = false)

/-- STEPCNT is in [0, MAX_STEPS + 1], and is MAX_STEPS + 1 exactly when the cause is StepLimitExceededError
(10_state.md R19). -/
def CountInLimit (s : State) : Prop :=
  s.stepcnt ≤ s.maxSteps + 1 ∧ (s.stepcnt = s.maxSteps + 1 ↔ s.cause = .stepLimitExceededError)

/-- The length of TRACE against STEPCNT, cause by cause (10_state.md R20). -/
def TraceCounted (s : State) : Prop :=
  match s.phase with
  | .idle => s.trace.length = 0 ∧ s.stepcnt = 0
  | .run => s.trace.length = s.stepcnt
  | .halted =>
    if s.outValid = false then s.trace.length = 0 ∧ s.stepcnt = 0
    else if s.cause = .stepLimitExceededError then s.trace.length = s.stepcnt
    else s.trace.length = s.stepcnt + 1

/-- Once a run has been seeded, LIDX is the index of the program: LIDX[l] = pos exactly when the instruction at
pos declares l (10_state.md R22). -/
def IndexExact (s : State) : Prop :=
  s.outValid = true → ∀ l pos, Table.get s.lidx l = some pos ↔
    1 ≤ pos ∧ pos ≤ s.progLen ∧ labelAt s.params s.store pos = some l

/-- Once a run has been seeded, every position of the program holds a word in the instance's form
(70_reset_and_hazards.md R193). -/
def StoreFilled (s : State) : Prop :=
  s.outValid = true → ∀ pos, 1 ≤ pos → pos ≤ s.progLen →
    ∃ c, Memory.read s.store pos = some c ∧ c.wf s.params = true

/-- Every register fits its width (00_scope.md R4, R5; 10_state.md R27): nothing wraps. -/
def FitsWidths (s : State) : Prop :=
  ∀ W, s.params.widths = some W →
    s.n < 2 ^ W.regW ∧ s.p < 2 ^ W.regW ∧ s.k < 2 ^ W.symW ∧ s.maxSteps < 2 ^ W.cntW ∧
    s.progLen < 2 ^ W.pcW ∧ s.pc < 2 ^ W.pcW ∧ s.stepcnt < 2 ^ W.cntW ∧
    s.info.a < 2 ^ W.infoW ∧ s.info.b < 2 ^ W.infoW ∧ s.info.c < 2 ^ W.infoW ∧ s.info.d < 2 ^ W.infoW ∧
    (s.outValid = true → s.progLen ≤ W.progCap ∧ s.maxSteps ≤ 2 ^ W.cntW - 2)

/-! The trace as a replay of the run. -/

/-- The PCs of a run so far: one for each snapshot, and in RUN the PC of the step to come. -/
def State.pcs (s : State) : List Nat :=
  s.trace.map Snapshot.pc ++ (match s.phase with
    | .run => [s.pc]
    | .idle => []
    | .halted => [])

/-- The instruction jumps only backward: GOTOA and JMPA (42_jumps.md R121). -/
def isBackward : Instr → Bool
  | .gotoa _ => true
  | .jmpa _ => true
  | .add _ => false
  | .tail _ => false
  | .clr _ => false
  | .assign _ => false
  | .gotob _ => false
  | .jmpb _ => false
  | .cont _ => false

/-- The instruction jumps only forward: GOTOB and JMPB. -/
def isForward : Instr → Bool
  | .gotob _ => true
  | .jmpb _ => true
  | .add _ => false
  | .tail _ => false
  | .clr _ => false
  | .assign _ => false
  | .gotoa _ => false
  | .jmpa _ => false
  | .cont _ => false

/-- `b` may follow `a` in the PC sequence: the next position, or the target of a jump at `a` that obeys the
direction rule (42_jumps.md R121, 60_exceptions.md R174). -/
def Follows (s : State) (a b : Nat) : Prop :=
  b = a + 1 ∨ ∃ i, s.instrAt a = some i ∧ Table.get s.lidx i.fields.y = some b ∧
    (isBackward i = true ∧ b < a ∨ isForward i = true ∧ a < b)

/-- Every two consecutive PCs of the run follow one another. -/
def TraceReplays (s : State) : Prop :=
  ∀ i a b, s.pcs[i]? = some a → s.pcs[i + 1]? = some b → Follows s a b

/-- All of them together. -/
structure Inv (s : State) : Prop where
  paramsWf : s.params.wf = true
  canonical : StorageCanonical s
  bankSized : BankSized s
  symbols : SymbolsOnly s
  withinCap : WithinCap s
  pcInProgram : PcInProgram s
  status : StatusAgrees s
  count : CountInLimit s
  traceCounted : TraceCounted s
  index : IndexExact s
  filled : StoreFilled s
  fits : FitsWidths s
  replays : TraceReplays s

/-! The unbounded instance a bounded one is an instance of. -/

/-- The record a packed word stands for; a word that is no instruction stands for an illegal record. -/
def toRecord (W : Widths) : StoreWord → StoreWord
  | .packed w => match decode W w with
    | .instr i => .record (some i.opcode) i.fields
    | .illegal _ => .record none (wordFields W w)
  | .record op f => .record op f

/-- The same machine with every width unbounded: the program as records, CAP kept (00_scope.md R4, R5). -/
def State.unbounded (W : Widths) (s : State) : State :=
  { s with
    params := { s.params with widths := none }
    store := s.store.map (fun e => (e.1, toRecord W e.2)) }

/-- Every word of the program is one of the nine instructions. -/
def ProgramLegal (s : State) : Prop := ∀ pos, 1 ≤ pos → pos ≤ s.progLen → ∃ i, s.instrAt pos = some i

end Sys2Proof.Machine
end

