-- ==== Sys2Proof/Certificates/Slice0/Obligations.lean ====
section
/-! DEFINITION. The statements for the provers, from the numbered rules of spec/. OBLIGATIONS.json says which rule
each formalises. -/

open Sys2Proof Sys2Proof.Machine

/-! Encoding. -/

/-- The eight worked words of 30_encoding.md R78, which the spec marks as derived from its layout. -/
def Obligations.WorkedWordsDecode : Prop :=
  decode ref32Widths 0x80028101 = .instr (.jmpb ⟨some 0, 2, 1, 1⟩) ∧
  decode ref32Widths 0x00001203 = .instr (.add ⟨none, 0, 2, 3⟩) ∧
  decode ref32Widths 0x80724003 = .instr (.assign ⟨some 7, 2, 0, 3⟩) ∧
  decode ref32Widths 0x00005000 = .instr (.gotoa ⟨none, 0, 0, 0⟩) ∧
  decode ref32Widths 0x00009000 = .instr (.cont ⟨none, 0, 0, 0⟩) ∧
  decode ref32Widths 0x80309000 = .instr (.cont ⟨some 3, 0, 0, 0⟩) ∧
  decode ref32Widths 0x00000000 = .illegal .unknownOpcode ∧
  decode ref32Widths 0x10001101 = .illegal .reservedBits

/-- For every widths of the general layout (30_encoding.md R63), the word of a well-formed instruction fits the
word width and decodes to that instruction, every field at every value. -/
def Obligations.DecodeOfEncode : Prop :=
  ∀ (W : Widths) (i : Instr), i.wf W = true →
    encode W i < 2 ^ W.wordW ∧ decode W (encode W i) = .instr i

/-- Every word is exactly one of the nine instructions or illegal, by RES and OPCODE alone; an instruction's
operation is the one its OPCODE numbers (30_encoding.md R74, which the spec marks as its own derivation). -/
def Obligations.DecoderIsTotal : Prop :=
  ∀ (W : Widths) (w : Nat),
    ((∃ why, decode W w = .illegal why) ↔
      bitField w W.resLo W.resW ≠ 0 ∨ ¬ (1 ≤ bitField w W.opLo opcW ∧ bitField w W.opLo opcW ≤ 9)) ∧
    ∀ i, decode W w = .instr i → i.opcode.code = bitField w W.opLo opcW ∧ i.fields = wordFields W w

/-- The opcode numbers, and match against mask, of 30_encoding.md R64. -/
def Obligations.OpcodeMapByMask : Prop :=
  (Opcode.add.code = 1 ∧ Opcode.tail.code = 2 ∧ Opcode.clr.code = 3 ∧ Opcode.assign.code = 4 ∧
    Opcode.gotoa.code = 5 ∧ Opcode.gotob.code = 6 ∧ Opcode.jmpa.code = 7 ∧ Opcode.jmpb.code = 8 ∧
    Opcode.cont.code = 9) ∧
  ∀ (w : BitVec 32) (op : Opcode),
    w &&& 0x7000F000#32 = BitVec.ofNat 32 (0x1000 * op.code) ↔
      ∃ i, decode ref32Widths w.toNat = .instr i ∧ i.opcode = op

/-- The fields of a `REF32` word by bit position (30_encoding.md R62, R69). -/
def Obligations.PackedFieldsByBit : Prop :=
  ∀ w : BitVec 32,
    wordFields ref32Widths w.toNat =
      { label := if w.extractLsb 31 31 = 1#1 then some (w.extractLsb 27 20).toNat else none
        x := (w.extractLsb 19 16).toNat
        j := (w.extractLsb 11 8).toNat
        y := (w.extractLsb 7 0).toNat } ∧
    bitField w.toNat ref32Widths.resLo ref32Widths.resW = (w.extractLsb 30 28).toNat ∧
    bitField w.toNat ref32Widths.opLo opcW = (w.extractLsb 15 12).toNat ∧
    ∀ i, decode ref32Widths w.toNat = .instr i →
      i.fields = wordFields ref32Widths w.toNat ∧ i.opcode.code = (w.extractLsb 15 12).toNat

/-! The nine instructions. Register `v` of a bank is its `v - 1`-th entry. -/

/-- ADD (41_sequence_ops.md R110): OperandError for Y outside 1..P; then AlphabetError for j outside 1..K, whatever the
capacity; then CapacityError for a register that holds CAP symbols; else the append. -/
def Obligations.AddAppends : Prop :=
  ∀ (f : Fields) (s : State), (Instr.add f).opcode.code = 1 ∧
    (¬ (1 ≤ f.y ∧ f.y ≤ s.p) → exec (.add f) s = .next (s.raiseHalt (.operand s.pc .y f.y))) ∧
    (1 ≤ f.y → f.y ≤ s.p →
      (1 ≤ f.j → f.j ≤ s.k → (∀ cap, s.params.cap = some cap → (s.bank.getD (f.y - 1) []).length < cap) →
        exec (.add f) s = .next { s with
          bank := s.bank.set (f.y - 1) (s.bank.getD (f.y - 1) [] ++ [f.j]), pc := s.pc + 1 }) ∧
      (¬ (1 ≤ f.j ∧ f.j ≤ s.k) → exec (.add f) s = .next (s.raiseHalt (.alphabetAdd s.pc f.j))) ∧
      (1 ≤ f.j → f.j ≤ s.k → ∀ cap, s.params.cap = some cap → cap ≤ (s.bank.getD (f.y - 1) []).length →
        exec (.add f) s = .next (s.raiseHalt (.capacity s.pc f.y))))

/-- TAIL (41_sequence_ops.md R111): the first symbol of register Y goes, an empty register stays empty; OperandError for
Y outside 1..P. -/
def Obligations.TailRemovesFirst : Prop :=
  ∀ (f : Fields) (s : State), (Instr.tail f).opcode.code = 2 ∧
    (¬ (1 ≤ f.y ∧ f.y ≤ s.p) → exec (.tail f) s = .next (s.raiseHalt (.operand s.pc .y f.y))) ∧
    (1 ≤ f.y → f.y ≤ s.p → exec (.tail f) s = .next { s with
      bank := s.bank.set (f.y - 1) (s.bank.getD (f.y - 1) []).tail, pc := s.pc + 1 })

/-- CLR (41_sequence_ops.md R112): register X becomes empty; OperandError for X outside 1..P. -/
def Obligations.ClrEmpties : Prop :=
  ∀ (f : Fields) (s : State), (Instr.clr f).opcode.code = 3 ∧
    (¬ (1 ≤ f.x ∧ f.x ≤ s.p) → exec (.clr f) s = .next (s.raiseHalt (.operand s.pc .x f.x))) ∧
    (1 ≤ f.x → f.x ≤ s.p → exec (.clr f) s = .next { s with bank := s.bank.set (f.x - 1) [], pc := s.pc + 1 })

/-- ASSIGN (41_sequence_ops.md R113): register X takes register Y's value, X = Y included; OperandError for X, else for
Y, outside 1..P. -/
def Obligations.AssignCopies : Prop :=
  ∀ (f : Fields) (s : State), (Instr.assign f).opcode.code = 4 ∧
    (¬ (1 ≤ f.x ∧ f.x ≤ s.p) → exec (.assign f) s = .next (s.raiseHalt (.operand s.pc .x f.x))) ∧
    (1 ≤ f.x → f.x ≤ s.p → ¬ (1 ≤ f.y ∧ f.y ≤ s.p) →
      exec (.assign f) s = .next (s.raiseHalt (.operand s.pc .y f.y))) ∧
    (1 ≤ f.x → f.x ≤ s.p → 1 ≤ f.y → f.y ≤ s.p → exec (.assign f) s = .next { s with
      bank := s.bank.set (f.x - 1) (s.bank.getD (f.y - 1) []), pc := s.pc + 1 })

/-- GOTOA (42_jumps.md R124, with the arbiter of R120 in direction A). -/
def Obligations.GotoaJumpsEarlier : Prop :=
  ∀ (f : Fields) (s : State), (Instr.gotoa f).opcode.code = 5 ∧
    (∀ t, Table.get s.lidx f.y = some t → t < s.pc → exec (.gotoa f) s = .next { s with pc := t }) ∧
    (∀ t, Table.get s.lidx f.y = some t → s.pc ≤ t →
      exec (.gotoa f) s = .next (s.raiseHalt (.directionViolation .earlier f.y s.pc t))) ∧
    (Table.get s.lidx f.y = none → exec (.gotoa f) s = .next (s.raiseHalt (.missingLabel f.y s.pc)))

/-- GOTOB (42_jumps.md R125, with the arbiter of R120 in direction B). -/
def Obligations.GotobJumpsLater : Prop :=
  ∀ (f : Fields) (s : State), (Instr.gotob f).opcode.code = 6 ∧
    (∀ t, Table.get s.lidx f.y = some t → s.pc < t → exec (.gotob f) s = .next { s with pc := t }) ∧
    (∀ t, Table.get s.lidx f.y = some t → t ≤ s.pc →
      exec (.gotob f) s = .next (s.raiseHalt (.directionViolation .later f.y s.pc t))) ∧
    (Table.get s.lidx f.y = none → exec (.gotob f) s = .next (s.raiseHalt (.missingLabel f.y s.pc)))

/-- JMPA (42_jumps.md R123, R126): OperandError for X outside 1..P, whatever the guard; guard false, PC + 1 whatever the
label; guard true, as GOTOA. -/
def Obligations.JmpaJumpsIfGuard : Prop :=
  ∀ (f : Fields) (s : State), (Instr.jmpa f).opcode.code = 7 ∧
    (¬ (1 ≤ f.x ∧ f.x ≤ s.p) → exec (.jmpa f) s = .next (s.raiseHalt (.operand s.pc .x f.x))) ∧
    (1 ≤ f.x → f.x ≤ s.p →
      ((∀ rest, s.bank.getD (f.x - 1) [] ≠ f.j :: rest) → exec (.jmpa f) s = .next { s with pc := s.pc + 1 }) ∧
      ∀ rest, s.bank.getD (f.x - 1) [] = f.j :: rest →
        (∀ t, Table.get s.lidx f.y = some t → t < s.pc → exec (.jmpa f) s = .next { s with pc := t }) ∧
        (∀ t, Table.get s.lidx f.y = some t → s.pc ≤ t →
          exec (.jmpa f) s = .next (s.raiseHalt (.directionViolation .earlier f.y s.pc t))) ∧
        (Table.get s.lidx f.y = none → exec (.jmpa f) s = .next (s.raiseHalt (.missingLabel f.y s.pc))))

/-- JMPB (42_jumps.md R123, R127): OperandError for X outside 1..P, whatever the guard; guard false, PC + 1 whatever the
label; guard true, as GOTOB. -/
def Obligations.JmpbJumpsIfGuard : Prop :=
  ∀ (f : Fields) (s : State), (Instr.jmpb f).opcode.code = 8 ∧
    (¬ (1 ≤ f.x ∧ f.x ≤ s.p) → exec (.jmpb f) s = .next (s.raiseHalt (.operand s.pc .x f.x))) ∧
    (1 ≤ f.x → f.x ≤ s.p →
      ((∀ rest, s.bank.getD (f.x - 1) [] ≠ f.j :: rest) → exec (.jmpb f) s = .next { s with pc := s.pc + 1 }) ∧
      ∀ rest, s.bank.getD (f.x - 1) [] = f.j :: rest →
        (∀ t, Table.get s.lidx f.y = some t → s.pc < t → exec (.jmpb f) s = .next { s with pc := t }) ∧
        (∀ t, Table.get s.lidx f.y = some t → t ≤ s.pc →
          exec (.jmpb f) s = .next (s.raiseHalt (.directionViolation .later f.y s.pc t))) ∧
        (Table.get s.lidx f.y = none → exec (.jmpb f) s = .next (s.raiseHalt (.missingLabel f.y s.pc))))

/-- CONTINUE, in every state and with any fields (43_halt.md R140): HALTED, CLEAN, INFO 0, and nothing else; its step
adds its snapshot and is not counted, whatever the limit. -/
def Obligations.ContinueHaltsCleanly : Prop :=
  ∀ (f : Fields) (s : State), (Instr.cont f).opcode.code = 9 ∧
    exec (.cont f) s = .next { s with phase := .halted, cause := .clean, info := ⟨0, 0, 0, 0⟩ } ∧
    (Running s → PcInRange s → s.instrAt s.pc = some (.cont f) →
      step s = .next { s.afterQuiet with
        phase := .halted, cause := .clean, info := ⟨0, 0, 0, 0⟩, trace := s.trace ++ [⟨s.pc, s.bank⟩] })

/-- The operand check of every instruction that uses a register field, X before Y, before any effect and before the
guard of JMPA and JMPB (30_encoding.md R66, 60_exceptions.md R158). -/
def Obligations.OperandCheck : Prop :=
  ∀ (f : Fields) (s : State),
    (¬ (1 ≤ f.x ∧ f.x ≤ s.p) → ∀ i ∈ [Instr.clr f, .assign f, .jmpa f, .jmpb f],
      exec i s = .next (s.raiseHalt (.operand s.pc .x f.x))) ∧
    (¬ (1 ≤ f.y ∧ f.y ≤ s.p) → ∀ i ∈ [Instr.add f, .tail f],
      exec i s = .next (s.raiseHalt (.operand s.pc .y f.y))) ∧
    (1 ≤ f.x → f.x ≤ s.p → ¬ (1 ≤ f.y ∧ f.y ≤ s.p) →
      exec (.assign f) s = .next (s.raiseHalt (.operand s.pc .y f.y)))

/-- A field an opcode does not use may hold any value (30_encoding.md R65, R70). -/
def Obligations.UnusedFieldsIgnored : Prop :=
  ∀ (s : State) (l : Option Nat) (x x' j j' y y' : Nat),
    exec (.add ⟨l, x, j, y⟩) s = exec (.add ⟨l, x', j, y⟩) s ∧
    exec (.tail ⟨l, x, j, y⟩) s = exec (.tail ⟨l, x', j', y⟩) s ∧
    exec (.clr ⟨l, x, j, y⟩) s = exec (.clr ⟨l, x, j', y'⟩) s ∧
    exec (.assign ⟨l, x, j, y⟩) s = exec (.assign ⟨l, x, j', y⟩) s ∧
    exec (.gotoa ⟨l, x, j, y⟩) s = exec (.gotoa ⟨l, x', j', y⟩) s ∧
    exec (.gotob ⟨l, x, j, y⟩) s = exec (.gotob ⟨l, x', j', y⟩) s ∧
    exec (.cont ⟨l, x, j, y⟩) s = exec (.cont ⟨l, x', j', y'⟩) s

/-- The instruction's own label has no effect on its execution (40_startup_and_step_fsm.md R93). -/
def Obligations.OwnLabelIgnored : Prop := ∀ (i : Instr) (s : State), exec i s = exec i.unlabelled s

/-- The four parts driven by the decoder's control word do what the instruction rules say (30_encoding.md R75,
which is informative: the model's control word and datapath agree with the meanings). -/
def Obligations.ControlWordAgrees : Prop :=
  ∀ (i : Instr) (s : State), exec i s = .next (driveControl (controlWord i.opcode) i.fields s)

/-! Frames. -/

/-- ADD, TAIL, CLR, ASSIGN: nothing but PC and the one destination register (Y of ADD and TAIL, X of CLR and
ASSIGN) is written, or the run ends with PC and the bank as they were. -/
def Obligations.SequenceFrame : Prop :=
  ∀ (f : Fields) (s t : State), ∀ i ∈ [Instr.add f, .tail f, .clr f, .assign f], exec i s = .next t →
    UntouchedByInstr s t ∧ t.bank.length = s.bank.length ∧
    (∀ r, destReg i ≠ some r → t.readReg r = s.readReg r) ∧
    (SameStatus s t ∨ HaltedCleanly s t)

/-- GOTOA, GOTOB, JMPA, JMPB write PC and nothing else, or end the run with PC as it was; no register changes. -/
def Obligations.JumpFrame : Prop :=
  ∀ (f : Fields) (s t : State), ∀ i ∈ [Instr.gotoa f, .gotob f, .jmpa f, .jmpb f], exec i s = .next t →
    UntouchedByInstr s t ∧ t.bank = s.bank ∧ (SameStatus s t ∨ HaltedCleanly s t)

/-- CONTINUE writes PHASE, CAUSE and INFO and nothing else. -/
def Obligations.ContinueFrame : Prop :=
  ∀ (f : Fields) (s t : State), exec (.cont f) s = .next t → UntouchedByInstr s t ∧ HaltedCleanly s t

/-- An instruction that ends the run updates neither PC nor the bank, and its step does not count
(70_reset_and_hazards.md R202). -/
def Obligations.RaisingInstrUpdatesNothing : Prop :=
  ∀ (s u t : State) (i : Instr), Running s → PcInRange s → s.instrAt s.pc = some i →
    exec i s.afterQuiet.emit = .next u → u.phase = .halted → step s = .next t →
    t.pc = s.pc ∧ t.bank = s.bank ∧ t.stepcnt = s.stepcnt

/-- A copy made by ASSIGN is a value copy: a later sequence instruction that writes one of the two registers leaves
the other; and ASSIGN with X = Y leaves the bank as it is (41_sequence_ops.md R113; 70_reset_and_hazards.md R201). -/
def Obligations.AssignIsolates : Prop :=
  ∀ (f : Fields) (s t : State), BankSized s → 1 ≤ f.x → f.x ≤ s.p → 1 ≤ f.y → f.y ≤ s.p →
    exec (.assign f) s = .next t →
    (f.x = f.y → t.bank = s.bank) ∧
    t.readReg f.x = s.readReg f.y ∧
    ∀ (i : Instr) (u : State), f.x ≠ f.y → exec i t = .next u →
      (destReg i = some f.x → u.readReg f.y = s.readReg f.y) ∧
      (destReg i = some f.y → u.readReg f.x = s.readReg f.y)

/-- The direction of an executed jump: a GOTOA goes strictly back, a GOTOB strictly on; a JMPA goes strictly back or
to the next position, a JMPB strictly on (42_jumps.md R121). -/
def Obligations.ExecutedJumpsKeepDirection : Prop :=
  ∀ (f : Fields) (s t : State), s.phase = .run → t.phase = .run →
    (exec (.gotoa f) s = .next t → t.pc < s.pc) ∧
    (exec (.gotob f) s = .next t → s.pc < t.pc) ∧
    (exec (.jmpa f) s = .next t → t.pc < s.pc ∨ t.pc = s.pc + 1) ∧
    (exec (.jmpb f) s = .next t → s.pc < t.pc)

/-! Halts. -/

/-- The cause codes of 60_exceptions.md R150. -/
def Obligations.CauseCodes : Prop :=
  Cause.none.code = 0 ∧ Halt.clean.cause.code = 1 ∧
  (∀ r i a, (Halt.alphabetInput r i a).cause.code = 2) ∧ (∀ pc j, (Halt.alphabetAdd pc j).cause.code = 2) ∧
  (∀ l a b, (Halt.duplicateLabel l a b).cause.code = 3) ∧ (∀ l pc, (Halt.missingLabel l pc).cause.code = 4) ∧
  (∀ d l a b, (Halt.directionViolation d l a b).cause.code = 5) ∧
  (∀ pc n, (Halt.pcOutOfRange pc n).cause.code = 6) ∧ (∀ c m, (Halt.stepLimitExceeded c m).cause.code = 7) ∧
  (∀ pc w, (Halt.illegalInstruction pc w).cause.code = 8) ∧ (∀ pc q v, (Halt.operand pc q v).cause.code = 9) ∧
  (∀ pc r, (Halt.capacity pc r).cause.code = 10) ∧ (∀ c r, (Halt.config c r).cause.code = 11) ∧
  ∀ c : Cause, c.code ≤ 11

/-- The INFO of each cause, row by row of 60_exceptions.md R151. -/
def Obligations.InfoTable : Prop :=
  Halt.clean.info = ⟨0, 0, 0, 0⟩ ∧
  (∀ r i a, (Halt.alphabetInput r i a).info = ⟨0, r, i, a⟩) ∧
  (∀ pc j, (Halt.alphabetAdd pc j).info = ⟨1, pc, 0, j⟩) ∧
  (∀ l a b, (Halt.duplicateLabel l a b).info = ⟨l, a, b, 0⟩) ∧
  (∀ l pc, (Halt.missingLabel l pc).info = ⟨l, pc, 0, 0⟩) ∧
  (∀ l a b, (Halt.directionViolation .earlier l a b).info = ⟨0, l, a, b⟩) ∧
  (∀ l a b, (Halt.directionViolation .later l a b).info = ⟨1, l, a, b⟩) ∧
  (∀ pc n, (Halt.pcOutOfRange pc n).info = ⟨pc, n, 0, 0⟩) ∧
  (∀ c m, (Halt.stepLimitExceeded c m).info = ⟨c, m, 0, 0⟩) ∧
  (∀ pc w, (Halt.illegalInstruction pc w).info = ⟨pc, w, 0, 0⟩) ∧
  (∀ pc v, (Halt.operand pc .x v).info = ⟨pc, 0, v, 0⟩) ∧
  (∀ pc v, (Halt.operand pc .y v).info = ⟨pc, 1, v, 0⟩) ∧
  (∀ pc r, (Halt.capacity pc r).info = ⟨pc, r, 0, 0⟩) ∧
  (∀ c r, (Halt.config c r).info = ⟨c, r, 0, 0⟩)

/-- Taking a halt writes PHASE, CAUSE and INFO and nothing else (60_exceptions.md R160); INFO holds the halt's
details where they fit its registers. What INFO holds otherwise is the model's free value (log entry 9), of which
only the width is stated. -/
def Obligations.HaltEntry : Prop :=
  ∀ (s : State) (h : Halt),
    (∃ i, s.raiseHalt h = { s with phase := .halted, cause := h.cause, info := i }) ∧
    (fitsInfo s.params h.info.a = true → (s.raiseHalt h).info.a = h.info.a) ∧
    (fitsInfo s.params h.info.b = true → (s.raiseHalt h).info.b = h.info.b) ∧
    (fitsInfo s.params h.info.c = true → (s.raiseHalt h).info.c = h.info.c) ∧
    (fitsInfo s.params h.info.d = true → (s.raiseHalt h).info.d = h.info.d) ∧
    ∀ W, s.params.widths = some W →
      (s.raiseHalt h).info.a < 2 ^ W.infoW ∧ (s.raiseHalt h).info.b < 2 ^ W.infoW ∧
      (s.raiseHalt h).info.c < 2 ^ W.infoW ∧ (s.raiseHalt h).info.d < 2 ^ W.infoW

/-! The step. -/

/-- A STEP RUNS THE DECODED INSTRUCTION: in a run, with PC in range, when the word at PC decodes to `i` (a packed
word by the instance's layout, a record of `ABS` as it is), step emits the snapshot, executes `i`, and applies
item 5 to what it leaves. -/
def Obligations.StepRunsDecoded : Prop :=
  ∀ (s : State) (i : Instr), Running s → PcInRange s →
    ((∃ W w, s.params.widths = some W ∧ Memory.read s.store s.pc = some (.packed w) ∧ decode W w = .instr i) ∨
      (s.params.widths = none ∧ Memory.read s.store s.pc = some (.record (some i.opcode) i.fields))) →
    ∃ t, exec i s.afterQuiet.emit = .next t ∧ step s = .next t.countStep

/-- Item 1: every step of a run, whatever it does, appends one snapshot, of PC and the bank as they were before it
(40_startup_and_step_fsm.md R91). -/
def Obligations.SnapshotBeforeEffects : Prop :=
  ∀ s t : State, Running s → step s = .next t → t.trace = s.trace ++ [⟨s.pc, s.bank⟩]

/-- Item 2 (40_startup_and_step_fsm.md R92). -/
def Obligations.PcOutOfRangeHalts : Prop :=
  ∀ s : State, Running s → (s.pc < 1 ∨ s.progLen < s.pc) →
    step s = .next (s.afterQuiet.emit.raiseHalt (.pcOutOfRange s.pc s.progLen))

/-- A packed word with RES not 0 or OPCODE outside 1..9 is an IllegalInstruction halt when fetched, before any effect
(30_encoding.md R71, 60_exceptions.md R157). An illegal record of `ABS`, and what the Loader reads of an illegal word,
are `LoaderReadsEveryLabel`. -/
def Obligations.IllegalWordHalts : Prop :=
  ∀ (s : State) (W : Widths) (w : Nat), s.params.widths = some W →
    (bitField w W.resLo W.resW ≠ 0 ∨ ¬ (1 ≤ bitField w W.opLo opcW ∧ bitField w W.opLo opcW ≤ 9)) →
    Running s → PcInRange s → Memory.read s.store s.pc = some (.packed w) →
    step s = .next (s.afterQuiet.emit.raiseHalt (.illegalInstruction s.pc w))

/-- Item 5 (40_startup_and_step_fsm.md R96): an instruction that completed counts, and the run ends when the count
exceeds MAX_STEPS, with the instruction's effect in place; an instruction that ended the run does not count. -/
def Obligations.StepCountAndLimit : Prop :=
  ∀ (s u : State) (i : Instr), Running s → PcInRange s → s.instrAt s.pc = some i →
    exec i s.afterQuiet.emit = .next u →
    (u.phase = .run → s.stepcnt + 1 ≤ s.maxSteps → step s = .next { u with stepcnt := s.stepcnt + 1 }) ∧
    (u.phase = .run → s.maxSteps < s.stepcnt + 1 →
      step s = .next (({ u with stepcnt := s.stepcnt + 1 } : State).raiseHalt
        (.stepLimitExceeded (s.stepcnt + 1) s.maxSteps))) ∧
    (u.phase = .halted → step s = .next u)

/-- In IDLE and HALTED a quiet step changes nothing of the block. That such a step answers the same state, where the
spec says no step is enabled, is the model's choice (log entry 4; 40_startup_and_step_fsm.md R100). -/
def Obligations.IdleAndHaltedHold : Prop :=
  ∀ s : State, Quiet s → s.phase ≠ .run → step s = .next s.afterQuiet

/-! The start sequence and reset. -/

/-- The configuration check: the first failed test of 40_startup_and_step_fsm.md R82 gives its sub-code, before
anything else is looked at. -/
def Obligations.ConfigErrorFirstFailedTest : Prop :=
  ∀ (s : State) (l : Launch) (rest : List HostEvent), StartPending s l rest →
    let fails := fun (code reg : Nat) => step s =
      .next (((s.withHost rest).latchLaunch l).raiseHalt (.config code reg))
    (l.p < 1 → fails 1 0) ∧
    (1 ≤ l.p → l.p < l.n → fails 2 0) ∧
    (1 ≤ l.p → l.n ≤ l.p → l.k < 1 → fails 3 0) ∧
    (1 ≤ l.p → l.n ≤ l.p → 1 ≤ l.k → ∀ W, s.params.widths = some W → W.progCap < l.progLen → fails 4 0) ∧
    (1 ≤ l.p → l.n ≤ l.p → 1 ≤ l.k → ∀ W, s.params.widths = some W → l.progLen ≤ W.progCap →
      2 ^ W.cntW - 2 < l.maxSteps → fails 5 0) ∧
    (1 ≤ l.p → l.n ≤ l.p → 1 ≤ l.k →
      (∀ W, s.params.widths = some W → l.progLen ≤ W.progCap ∧ l.maxSteps ≤ 2 ^ W.cntW - 2) →
      ∀ cap r v, s.params.cap = some cap → l.inputs[r]? = some v → cap < v.length →
        (∀ r' v', r' < r → l.inputs[r']? = some v' → v'.length ≤ cap) → fails 6 (r + 1))

/-- Input validation: the first element, registers ascending and elements ascending, that is no symbol ends the start
with AlphabetError, whatever the labels (40_startup_and_step_fsm.md R83). Register r + 1 is entry r of the inputs. -/
def Obligations.AlphabetErrorFirstOffender : Prop :=
  ∀ (s : State) (l : Launch) (rest : List HostEvent) (r i a : Nat) (v : Seq),
    StartPending s l rest → ConfigOk s.params l →
    l.inputs[r]? = some v → v[i]? = some a → ¬ (1 ≤ a ∧ a ≤ l.k) →
    (∀ r' v', r' < r → l.inputs[r']? = some v' → ∀ b ∈ v', 1 ≤ b ∧ b ≤ l.k) →
    (∀ i' b, i' < i → v[i']? = some b → 1 ≤ b ∧ b ≤ l.k) →
    step s = .next (((s.withHost rest).latchLaunch l).raiseHalt (.alphabetInput (r + 1) i a))

/-- The Loader: the second occurrence of the first label to repeat, in position order, ends the start with
DuplicateLabelError, whatever the opcodes and whether or not a jump names the label (40_startup_and_step_fsm.md
R84, 60_exceptions.md R153). -/
def Obligations.DuplicateLabelFirstCollision : Prop :=
  ∀ (s : State) (l : Launch) (rest : List HostEvent) (lab first second : Nat),
    StartPending s l rest → ConfigOk s.params l → InputsOk l → l.progLen ≤ l.program.length →
    1 ≤ first → first < second → second ≤ l.progLen →
    l.labelAt s.params first = some lab → l.labelAt s.params second = some lab →
    LabelsDistinct s.params l (second - 1) →
    ∃ ix, step s = .next (({ (s.withHost rest).latchLaunch l with lidx := ix } : State).raiseHalt
      (.duplicateLabel lab first second))

/-- A start that finds no failure: every field at the first step of a run (10_state.md R35,
40_startup_and_step_fsm.md R85), with LIDX the exact index of the program (10_state.md R22). -/
def Obligations.StartSeedsRun : Prop :=
  ∀ (s : State) (l : Launch) (rest : List HostEvent),
    StartPending s l rest → ConfigOk s.params l → InputsOk l → l.progLen ≤ l.program.length →
    LabelsDistinct s.params l l.progLen →
    ∃ ix, step s = .next
        { params := s.params
          n := l.n, p := l.p, k := l.k, maxSteps := l.maxSteps, progLen := l.progLen
          phase := .run, cause := .none, info := ⟨0, 0, 0, 0⟩, outValid := true
          pc := 1, stepcnt := 0
          bank := l.inputs ++ List.replicate (l.p - l.n) []
          lidx := ix, trace := []
          store := Memory.ofProgram l.program, host := rest } ∧
      ∀ lab pos, Table.get ix lab = some pos ↔
        1 ≤ pos ∧ pos ≤ l.progLen ∧ l.labelAt s.params pos = some lab

/-- The state after a pre-execution failure (10_state.md R36). -/
def Obligations.FailedStartState : Prop :=
  ∀ (s t : State) (l : Launch) (rest : List HostEvent), StartPending s l rest → step s = .next t →
    t.phase = .halted →
    (t.cause = .configError ∨ t.cause = .alphabetError ∨ t.cause = .duplicateLabelError) ∧
    t.outValid = false ∧ t.pc = 1 ∧ t.stepcnt = 0 ∧ t.trace = [] ∧ t.bank = List.replicate l.p [] ∧
    t.n = l.n ∧ t.p = l.p ∧ t.k = l.k ∧ t.maxSteps = l.maxSteps ∧ t.progLen = l.progLen

/-- No state survives from one run to the next: what an accepted start leaves depends on the launch and the instance
alone (10_state.md R33). -/
def Obligations.StartForgetsEarlierRun : Prop :=
  ∀ (s s' : State) (l : Launch) (rest : List HostEvent),
    s.host = .start l :: rest → s'.host = .start l :: rest → s.params = s'.params →
    s.phase ≠ .run → s'.phase ≠ .run → step s = step s'

/-- A `start` pulse in RUN is ignored (40_startup_and_step_fsm.md R81). That the pulse is a transition of its own in
which only the host's action is taken is the model's choice (log entry 3). -/
def Obligations.StartIgnoredInRun : Prop :=
  ∀ (s : State) (l : Launch) (rest : List HostEvent), s.host = .start l :: rest → s.phase = .run →
    step s = .next { s with host := rest }

/-- The launches the model refuses, as the spec asks (20_memory.md R42; 93_implementation_defined.md rows 10, 11, 17).
That the ports are looked at first, the count next and the store last is the model's choice, and so is that a short store
is refused before the Loader, whatever labels the words it holds repeat (log entries 5 and 6). -/
def Obligations.OutOfContractLaunchesRefused : Prop :=
  ∀ (s : State) (l : Launch) (rest : List HostEvent), s.host = .start l :: rest → s.phase ≠ .run →
    (l.onPorts s.params = false → step s = .refused .launchOffPorts) ∧
    (l.onPorts s.params = true → l.inputs.length ≠ l.n →
      step s = .refused (.inputCountMismatch l.inputs.length l.n)) ∧
    (l.onPorts s.params = true → l.inputs.length = l.n → ConfigOk s.params l → InputsOk l →
      l.program.length < l.progLen → step s = .refused (.programStoreShort l.program.length l.progLen))

/-- `reset`, asserted in any phase, gives every register the value of 10_state.md R34 (70_reset_and_hazards.md
R190). -/
def Obligations.ResetFromAnyState : Prop :=
  ∀ (s : State) (rest : List HostEvent), s.host = .reset :: rest →
    step s = .next
      { params := s.params
        n := 0, p := 0, k := 0, maxSteps := 0, progLen := 0
        phase := .idle, cause := .none, info := ⟨0, 0, 0, 0⟩, outValid := false
        pc := 1, stepcnt := 0, bank := [], lidx := [], trace := []
        store := s.store, host := rest }

/-- The state after reset (10_state.md R34). -/
def Obligations.ResetValues : Prop :=
  State.reset.phase = .idle ∧ State.reset.cause = .none ∧ State.reset.info = ⟨0, 0, 0, 0⟩ ∧
  State.reset.outValid = false ∧ State.reset.pc = 1 ∧ State.reset.stepcnt = 0 ∧
  (∀ i, State.reset.readReg i = []) ∧ (∀ l, Table.get State.reset.lidx l = none) ∧
  State.reset.trace = [] ∧ State.reset.n = 0 ∧ State.reset.p = 0 ∧ State.reset.k = 0 ∧
  State.reset.maxSteps = 0 ∧ State.reset.progLen = 0

/-! What the host reads. -/

/-- The status read port (10_state.md R29) with the codes of PHASE (R25), and the values its table gives after reset.
The codes of CAUSE are `CauseCodes`. -/
def Obligations.StatusReadPort : Prop :=
  (Phase.idle.code = 0 ∧ Phase.run.code = 1 ∧ Phase.halted.code = 2) ∧
  (∀ s : State,
    s.readStatus 0 = some s.n ∧ s.readStatus 1 = some s.p ∧ s.readStatus 2 = some s.k ∧
    s.readStatus 3 = some s.maxSteps ∧ s.readStatus 4 = some s.progLen ∧
    s.readStatus 5 = some (s.phase.code + (if s.outValid then 4 else 0) + 16 * s.cause.code) ∧
    s.readStatus 6 = some s.pc ∧ s.readStatus 7 = some s.stepcnt ∧
    s.readStatus 8 = some s.info.a ∧ s.readStatus 9 = some s.info.b ∧
    s.readStatus 10 = some s.info.c ∧ s.readStatus 11 = some s.info.d) ∧
  ∀ no, no ≤ 11 → State.reset.readStatus no = some (if no = 6 then 1 else 0)

/-- The results after a halt of a run that was seeded (60_exceptions.md R162). -/
def Obligations.ResultsAfterHalt : Prop :=
  ∀ s : State, s.phase = .halted → s.outValid = true →
    s.results = some { output := s.readReg 1, finalPc := s.pc, finalRegisters := s.bank, trace := s.trace }

/-! The machine as a whole. -/

/-- During a run the configuration, LIDX, the store and OUT_VALID are constant: only an accepted start and reset
write them (10_state.md R22, R24; 20_memory.md R52). -/
def Obligations.RunConstants : Prop :=
  ∀ s t : State, s.phase = .run → (∀ rest, s.host ≠ .reset :: rest) → step s = .next t →
    t.params = s.params ∧ t.n = s.n ∧ t.p = s.p ∧ t.k = s.k ∧ t.maxSteps = s.maxSteps ∧ t.progLen = s.progLen ∧
    t.lidx = s.lidx ∧ t.outValid = s.outValid ∧
    ∀ pos, Memory.read t.store pos = Memory.read s.store pos

/-- The program store and LIDX keep their canonical form. -/
def Obligations.StepKeepsCanonicalStorage : Prop :=
  ∀ s t : State, StorageCanonical s → step s = .next t → StorageCanonical t

/-- The bank keeps its P registers, every register holds symbols of 1..K only, none is longer than CAP
(10_state.md R10, R15). -/
def Obligations.StepKeepsSymbols : Prop :=
  ∀ s t : State, BankSized s ∧ SymbolsOnly s ∧ WithinCap s → step s = .next t →
    BankSized t ∧ SymbolsOnly t ∧ WithinCap t

/-- PC stays in [1, PROG_LEN + 1] (10_state.md R17). -/
def Obligations.StepKeepsPcInProgram : Prop :=
  ∀ s t : State, PcInProgram s → step s = .next t → PcInProgram t

/-- PHASE, CAUSE, INFO and OUT_VALID agree (10_state.md R25 to R28), STEPCNT stays within MAX_STEPS + 1 and is that
exactly at the step limit (R19), and TRACE has the length the cause says (R20). -/
def Obligations.StepKeepsStatusAndCounts : Prop :=
  ∀ s t : State, StatusAgrees s ∧ CountInLimit s ∧ TraceCounted s → step s = .next t →
    StatusAgrees t ∧ CountInLimit t ∧ TraceCounted t

/-- From the seeding on, LIDX is the exact index of the program, and the store holds a word at every position
(10_state.md R22, R23). -/
def Obligations.StepKeepsIndexExact : Prop :=
  ∀ s t : State, IndexExact s ∧ StoreFilled s → step s = .next t → IndexExact t ∧ StoreFilled t

/-- Every two consecutive PCs of a run are next positions or a jump that obeys the direction rule: the trace can be
replayed (60_exceptions.md R174, 42_jumps.md R121). -/
def Obligations.StepKeepsTraceReplay : Prop :=
  ∀ s t : State, TraceReplays s → step s = .next t → TraceReplays t

/-- All the invariants together, the widths of every register among them (00_scope.md R5). -/
def Obligations.StepKeepsInvariant : Prop := ∀ s t : State, Inv s → step s = .next t → Inv t

/-- The invariant holds after reset. -/
def Obligations.ResetMeetsInvariant : Prop := Inv State.reset

/-- From a state that meets the invariant the machine never stops, but on an accepted start that is off the ports,
carries another number of inputs than N, or presents a store of fewer than PROG_LEN words; each is refused by its own
name. That a quiet IDLE or HALTED answers a next state is the model's choice (log entry 4), and so is that a start
ignored in RUN does (log entry 3). -/
def Obligations.OnlyLaunchesAreRefused : Prop :=
  ∀ s : State, Inv s →
    (∃ t, step s = .next t) ∨
    ∃ l rest, s.host = .start l :: rest ∧ s.phase ≠ .run ∧
      ((l.onPorts s.params = false ∧ step s = .refused .launchOffPorts) ∨
        (l.inputs.length ≠ l.n ∧ step s = .refused (.inputCountMismatch l.inputs.length l.n)) ∨
        (l.program.length < l.progLen ∧ step s = .refused (.programStoreShort l.program.length l.progLen)))

/-- Every run ends: left alone, a run is HALTED after MAX_STEPS + 1 - STEPCNT transitions
(40_startup_and_step_fsm.md R98, which the spec marks as its own derivation). For a run that ends sooner the transitions
left over are taken in HALTED: that there are such transitions is the model's choice (log entry 4; R100 says that no
step is enabled there), so the count of transitions after an early halt rests on that entry. -/
def Obligations.EveryRunEnds : Prop :=
  ∀ s : State, Inv s → s.phase = .run → s.host = [] →
    ∃ t, Host.Core.run Sys2Proof.core (s.maxSteps + 1 - s.stepcnt) s = .next t ∧
      Phase.halted = State.phase t

/-- A well-formed program never ends in IllegalInstruction or OperandError (40_startup_and_step_fsm.md R94). -/
def Obligations.WellFormedProgramNeverFaultsAtDecode : Prop :=
  ∀ s t : State, StatusAgrees s → Running s → ProgramWf s → step s = .next t →
    t.cause ≠ .illegalInstruction ∧ t.cause ≠ .operandError

/-- A program with no GOTOA and no JMPA executes each position at most once, as a lemma about one step: while the
program (positions 1 .. PROG_LEN) holds no backward jump, a step keeps the PCs of the run strictly rising (42_jumps.md
R128, which the spec marks as its own derivation). -/
def Obligations.ForwardProgramsNeverRepeat : Prop :=
  ∀ s t : State, (∀ pos i, 1 ≤ pos → pos ≤ s.progLen → s.instrAt pos = some i → isBackward i = false) →
    s.pcs.Pairwise (· < ·) → step s = .next t → t.pcs.Pairwise (· < ·)

/-- A bounded instance and the unbounded one agree on every step of a run of legal words (00_scope.md R5, which the
spec marks as its own derivation): the unbounded machine takes the same step. INFO may differ only where a symbol can
be wider than an INFO register, whose value is then the model's free value (log entry 9). -/
def Obligations.BoundedStepIsUnbounded : Prop :=
  ∀ (s t : State) (W : Widths), s.params.widths = some W → Inv s → Running s → ProgramLegal s →
    step s = .next t →
    ∃ i, step (s.unbounded W) = .next { t.unbounded W with info := i } ∧ (W.symW ≤ W.infoW → i = t.info)

/-- The Loader enters every label that a word of the program declares, the word legal or not (30_encoding.md R72,
40_startup_and_step_fsm.md R84): what a position declares, of a packed word by LV and LABEL alone and of a record of
`ABS` by its label alone; that after a start that reached RUN, LIDX lists exactly these, so that no label stands twice;
and that an illegal record of `ABS` ends the run only when fetched, as `IllegalWordHalts` says of packed words. INFO_B is
there the model's free value (log entry 10), of which nothing is stated. -/
def Obligations.LoaderReadsEveryLabel : Prop :=
  ∀ s : State,
    (∀ pos W w, s.params.widths = some W → Memory.read s.store pos = some (.packed w) →
      labelAt s.params s.store pos =
        if bitField w W.lvLo 1 = 1 then some (bitField w W.labelLo W.lblW) else none) ∧
    (∀ pos op f, s.params.widths = none → Memory.read s.store pos = some (.record op f) →
      labelAt s.params s.store pos = f.label) ∧
    (∀ l rest t, StartPending s l rest → step s = .next t → t.phase = .run →
      ∀ lab pos, Table.get t.lidx lab = some pos ↔
        1 ≤ pos ∧ pos ≤ l.progLen ∧
          ((∃ W w, s.params.widths = some W ∧ l.program[pos - 1]? = some (.packed w) ∧
              bitField w W.lvLo 1 = 1 ∧ bitField w W.labelLo W.lblW = lab) ∨
            ∃ op f, s.params.widths = none ∧ l.program[pos - 1]? = some (.record op f) ∧ f.label = some lab)) ∧
    ∀ f : Fields, s.params.widths = none → Running s → PcInRange s →
      Memory.read s.store s.pc = some (.record none f) →
      ∃ word, step s = .next (s.afterQuiet.emit.raiseHalt (.illegalInstruction s.pc word))
end

