-- ==== Sys2Proof/Laws/Decode.lean ====
section
/-! SUPPORT. The fields of a concatenation: the last field is the low bits, and above it stand the rest. -/

namespace Sys2Proof

/-- The low field of `hi` followed by `lo`. -/
theorem bitField_low {hi lo n : Nat} (h : lo < 2 ^ n) : bitField (hi * 2 ^ n + lo) 0 n = lo := by
  simp [bitField, Nat.add_comm, Nat.add_mul_mod_self_right, Nat.mod_eq_of_lt h]

/-- A field above the low one. -/
theorem bitField_high {hi lo n : Nat} (h : lo < 2 ^ n) (m k : Nat) :
    bitField (hi * 2 ^ n + lo) (n + m) k = bitField hi m k := by
  have : (hi * 2 ^ n + lo) / 2 ^ n = hi := by
    rw [Nat.add_comm, Nat.add_mul_div_right _ _ (Nat.two_pow_pos n), Nat.div_eq_of_lt h, Nat.zero_add]
  simp only [bitField, Nat.pow_add, ← Nat.div_div_eq_div_mul, this]

/-- A field of a given width holds a number of that width. -/
theorem bitField_lt (w lo n : Nat) : bitField w lo n < 2 ^ n := Nat.mod_lt _ (Nat.two_pow_pos n)

/-- The concatenation of two parts stays within the two widths. -/
theorem concat_lt {hi lo n m : Nat} (hh : hi < 2 ^ m) (hl : lo < 2 ^ n) : hi * 2 ^ n + lo < 2 ^ (m + n) := by
  have : (hi + 1) * 2 ^ n ≤ 2 ^ m * 2 ^ n := Nat.mul_le_mul_right _ hh
  rw [Nat.pow_add]
  rw [Nat.add_mul] at this
  omega

/-- The operation numbers are read back. -/
@[simp] theorem Opcode.ofCode_code (op : Opcode) : Opcode.ofCode op.code = some op := by cases op <;> rfl

theorem Opcode.code_of_ofCode {n : Nat} {op : Opcode} (h : Opcode.ofCode n = some op) : op.code = n := by
  unfold Opcode.ofCode at h
  split at h <;> cases h <;> rfl

theorem Opcode.ofCode_isSome (n : Nat) : (Opcode.ofCode n).isSome = true ↔ 1 ≤ n ∧ n ≤ 9 := by
  unfold Opcode.ofCode
  split
  case h_10 h1 h2 h3 h4 h5 h6 h7 h8 h9 =>
    simp only [Option.isSome_none, Bool.false_eq_true, false_iff]
    rintro ⟨ha, hb⟩
    interval_cases n <;> contradiction
  all_goals simp

@[simp] theorem Instr.make_opcode_fields (i : Instr) : Instr.make i.opcode i.fields = i := by cases i <;> rfl

@[simp] theorem Instr.opcode_make (op : Opcode) (f : Fields) : (Instr.make op f).opcode = op := by cases op <;> rfl

@[simp] theorem Instr.fields_make (op : Opcode) (f : Fields) : (Instr.make op f).fields = f := by cases op <;> rfl

theorem Instr.make_injective {op op' : Opcode} {f f' : Fields} (h : Instr.make op f = Instr.make op' f') :
    op = op' ∧ f = f' := by
  have h1 := congrArg Instr.opcode h
  have h2 := congrArg Instr.fields h
  exact ⟨by simpa using h1, by simpa using h2⟩

/-- An operation number fits OPC_W bits. -/
theorem Opcode.code_lt (op : Opcode) : op.code < 2 ^ opcW := by cases op <;> decide

/-- The encoder as nested parts, each low field beside what stands above it. -/
theorem encode_eq (W : Widths) (i : Instr) :
    encode W i = (((((lvBit i.fields * 2 ^ W.resW + 0) * 2 ^ W.lblW + labelBits i.fields) * 2 ^ W.regW + i.fields.x)
      * 2 ^ opcW + i.opcode.code) * 2 ^ W.symW + i.fields.j) * 2 ^ W.yW + i.fields.y := by
  simp [encode, concatFields]

/-- A slice of a bit vector is a field of its number. -/
theorem toNat_extractLsb (w : BitVec 32) (hi lo : Nat) :
    (w.extractLsb hi lo).toNat = bitField w.toNat lo (hi - lo + 1) := by
  simp [bitField, BitVec.extractLsb, BitVec.extractLsb', Nat.shiftRight_eq_div_pow]

end Sys2Proof
end

