-- ==== Sys2Proof/Laws/State.lean ====
section
/-! SUPPORT. One lemma per field per named update of State, so that no later proof unfolds a record update. -/

namespace Sys2Proof.Machine

variable (s : State)

@[simp] theorem State.withHost_params (rest : List HostEvent) : (s.withHost rest).params = s.params := rfl
@[simp] theorem State.withHost_n (rest : List HostEvent) : (s.withHost rest).n = s.n := rfl
@[simp] theorem State.withHost_p (rest : List HostEvent) : (s.withHost rest).p = s.p := rfl
@[simp] theorem State.withHost_k (rest : List HostEvent) : (s.withHost rest).k = s.k := rfl
@[simp] theorem State.withHost_maxSteps (rest : List HostEvent) : (s.withHost rest).maxSteps = s.maxSteps := rfl
@[simp] theorem State.withHost_progLen (rest : List HostEvent) : (s.withHost rest).progLen = s.progLen := rfl
@[simp] theorem State.withHost_phase (rest : List HostEvent) : (s.withHost rest).phase = s.phase := rfl
@[simp] theorem State.withHost_cause (rest : List HostEvent) : (s.withHost rest).cause = s.cause := rfl
@[simp] theorem State.withHost_info (rest : List HostEvent) : (s.withHost rest).info = s.info := rfl
@[simp] theorem State.withHost_outValid (rest : List HostEvent) : (s.withHost rest).outValid = s.outValid := rfl
@[simp] theorem State.withHost_pc (rest : List HostEvent) : (s.withHost rest).pc = s.pc := rfl
@[simp] theorem State.withHost_stepcnt (rest : List HostEvent) : (s.withHost rest).stepcnt = s.stepcnt := rfl
@[simp] theorem State.withHost_bank (rest : List HostEvent) : (s.withHost rest).bank = s.bank := rfl
@[simp] theorem State.withHost_lidx (rest : List HostEvent) : (s.withHost rest).lidx = s.lidx := rfl
@[simp] theorem State.withHost_trace (rest : List HostEvent) : (s.withHost rest).trace = s.trace := rfl
@[simp] theorem State.withHost_store (rest : List HostEvent) : (s.withHost rest).store = s.store := rfl
@[simp] theorem State.withHost_host (rest : List HostEvent) : (s.withHost rest).host = rest := rfl

@[simp] theorem State.setPc_params (pos : Nat) : (s.setPc pos).params = s.params := rfl
@[simp] theorem State.setPc_n (pos : Nat) : (s.setPc pos).n = s.n := rfl
@[simp] theorem State.setPc_p (pos : Nat) : (s.setPc pos).p = s.p := rfl
@[simp] theorem State.setPc_k (pos : Nat) : (s.setPc pos).k = s.k := rfl
@[simp] theorem State.setPc_maxSteps (pos : Nat) : (s.setPc pos).maxSteps = s.maxSteps := rfl
@[simp] theorem State.setPc_progLen (pos : Nat) : (s.setPc pos).progLen = s.progLen := rfl
@[simp] theorem State.setPc_phase (pos : Nat) : (s.setPc pos).phase = s.phase := rfl
@[simp] theorem State.setPc_cause (pos : Nat) : (s.setPc pos).cause = s.cause := rfl
@[simp] theorem State.setPc_info (pos : Nat) : (s.setPc pos).info = s.info := rfl
@[simp] theorem State.setPc_outValid (pos : Nat) : (s.setPc pos).outValid = s.outValid := rfl
@[simp] theorem State.setPc_pc (pos : Nat) : (s.setPc pos).pc = pos := rfl
@[simp] theorem State.setPc_stepcnt (pos : Nat) : (s.setPc pos).stepcnt = s.stepcnt := rfl
@[simp] theorem State.setPc_bank (pos : Nat) : (s.setPc pos).bank = s.bank := rfl
@[simp] theorem State.setPc_lidx (pos : Nat) : (s.setPc pos).lidx = s.lidx := rfl
@[simp] theorem State.setPc_trace (pos : Nat) : (s.setPc pos).trace = s.trace := rfl
@[simp] theorem State.setPc_store (pos : Nat) : (s.setPc pos).store = s.store := rfl
@[simp] theorem State.setPc_host (pos : Nat) : (s.setPc pos).host = s.host := rfl

@[simp] theorem State.nextPc_params : (s.nextPc).params = s.params := rfl
@[simp] theorem State.nextPc_n : (s.nextPc).n = s.n := rfl
@[simp] theorem State.nextPc_p : (s.nextPc).p = s.p := rfl
@[simp] theorem State.nextPc_k : (s.nextPc).k = s.k := rfl
@[simp] theorem State.nextPc_maxSteps : (s.nextPc).maxSteps = s.maxSteps := rfl
@[simp] theorem State.nextPc_progLen : (s.nextPc).progLen = s.progLen := rfl
@[simp] theorem State.nextPc_phase : (s.nextPc).phase = s.phase := rfl
@[simp] theorem State.nextPc_cause : (s.nextPc).cause = s.cause := rfl
@[simp] theorem State.nextPc_info : (s.nextPc).info = s.info := rfl
@[simp] theorem State.nextPc_outValid : (s.nextPc).outValid = s.outValid := rfl
@[simp] theorem State.nextPc_pc : (s.nextPc).pc = s.pc + 1 := rfl
@[simp] theorem State.nextPc_stepcnt : (s.nextPc).stepcnt = s.stepcnt := rfl
@[simp] theorem State.nextPc_bank : (s.nextPc).bank = s.bank := rfl
@[simp] theorem State.nextPc_lidx : (s.nextPc).lidx = s.lidx := rfl
@[simp] theorem State.nextPc_trace : (s.nextPc).trace = s.trace := rfl
@[simp] theorem State.nextPc_store : (s.nextPc).store = s.store := rfl
@[simp] theorem State.nextPc_host : (s.nextPc).host = s.host := rfl

@[simp] theorem State.raiseHalt_params (h : Halt) : (s.raiseHalt h).params = s.params := rfl
@[simp] theorem State.raiseHalt_n (h : Halt) : (s.raiseHalt h).n = s.n := rfl
@[simp] theorem State.raiseHalt_p (h : Halt) : (s.raiseHalt h).p = s.p := rfl
@[simp] theorem State.raiseHalt_k (h : Halt) : (s.raiseHalt h).k = s.k := rfl
@[simp] theorem State.raiseHalt_maxSteps (h : Halt) : (s.raiseHalt h).maxSteps = s.maxSteps := rfl
@[simp] theorem State.raiseHalt_progLen (h : Halt) : (s.raiseHalt h).progLen = s.progLen := rfl
@[simp] theorem State.raiseHalt_phase (h : Halt) : (s.raiseHalt h).phase = .halted := rfl
@[simp] theorem State.raiseHalt_cause (h : Halt) : (s.raiseHalt h).cause = h.cause := rfl
@[simp] theorem State.raiseHalt_info (h : Halt) : (s.raiseHalt h).info = h.info.latch s.params := rfl
@[simp] theorem State.raiseHalt_outValid (h : Halt) : (s.raiseHalt h).outValid = s.outValid := rfl
@[simp] theorem State.raiseHalt_pc (h : Halt) : (s.raiseHalt h).pc = s.pc := rfl
@[simp] theorem State.raiseHalt_stepcnt (h : Halt) : (s.raiseHalt h).stepcnt = s.stepcnt := rfl
@[simp] theorem State.raiseHalt_bank (h : Halt) : (s.raiseHalt h).bank = s.bank := rfl
@[simp] theorem State.raiseHalt_lidx (h : Halt) : (s.raiseHalt h).lidx = s.lidx := rfl
@[simp] theorem State.raiseHalt_trace (h : Halt) : (s.raiseHalt h).trace = s.trace := rfl
@[simp] theorem State.raiseHalt_store (h : Halt) : (s.raiseHalt h).store = s.store := rfl
@[simp] theorem State.raiseHalt_host (h : Halt) : (s.raiseHalt h).host = s.host := rfl

@[simp] theorem State.emit_params : (s.emit).params = s.params := rfl
@[simp] theorem State.emit_n : (s.emit).n = s.n := rfl
@[simp] theorem State.emit_p : (s.emit).p = s.p := rfl
@[simp] theorem State.emit_k : (s.emit).k = s.k := rfl
@[simp] theorem State.emit_maxSteps : (s.emit).maxSteps = s.maxSteps := rfl
@[simp] theorem State.emit_progLen : (s.emit).progLen = s.progLen := rfl
@[simp] theorem State.emit_phase : (s.emit).phase = s.phase := rfl
@[simp] theorem State.emit_cause : (s.emit).cause = s.cause := rfl
@[simp] theorem State.emit_info : (s.emit).info = s.info := rfl
@[simp] theorem State.emit_outValid : (s.emit).outValid = s.outValid := rfl
@[simp] theorem State.emit_pc : (s.emit).pc = s.pc := rfl
@[simp] theorem State.emit_stepcnt : (s.emit).stepcnt = s.stepcnt := rfl
@[simp] theorem State.emit_bank : (s.emit).bank = s.bank := rfl
@[simp] theorem State.emit_lidx : (s.emit).lidx = s.lidx := rfl
@[simp] theorem State.emit_trace : (s.emit).trace = s.trace ++ [⟨s.pc, s.bank⟩] := rfl
@[simp] theorem State.emit_store : (s.emit).store = s.store := rfl
@[simp] theorem State.emit_host : (s.emit).host = s.host := rfl

@[simp] theorem State.countUp_params : (s.countUp).params = s.params := rfl
@[simp] theorem State.countUp_n : (s.countUp).n = s.n := rfl
@[simp] theorem State.countUp_p : (s.countUp).p = s.p := rfl
@[simp] theorem State.countUp_k : (s.countUp).k = s.k := rfl
@[simp] theorem State.countUp_maxSteps : (s.countUp).maxSteps = s.maxSteps := rfl
@[simp] theorem State.countUp_progLen : (s.countUp).progLen = s.progLen := rfl
@[simp] theorem State.countUp_phase : (s.countUp).phase = s.phase := rfl
@[simp] theorem State.countUp_cause : (s.countUp).cause = s.cause := rfl
@[simp] theorem State.countUp_info : (s.countUp).info = s.info := rfl
@[simp] theorem State.countUp_outValid : (s.countUp).outValid = s.outValid := rfl
@[simp] theorem State.countUp_pc : (s.countUp).pc = s.pc := rfl
@[simp] theorem State.countUp_stepcnt : (s.countUp).stepcnt = s.stepcnt + 1 := rfl
@[simp] theorem State.countUp_bank : (s.countUp).bank = s.bank := rfl
@[simp] theorem State.countUp_lidx : (s.countUp).lidx = s.lidx := rfl
@[simp] theorem State.countUp_trace : (s.countUp).trace = s.trace := rfl
@[simp] theorem State.countUp_store : (s.countUp).store = s.store := rfl
@[simp] theorem State.countUp_host : (s.countUp).host = s.host := rfl

@[simp] theorem State.writeReg_params (i : Nat) (v : Seq) : (s.writeReg i v).params = s.params := by cases i <;> rfl
@[simp] theorem State.writeReg_n (i : Nat) (v : Seq) : (s.writeReg i v).n = s.n := by cases i <;> rfl
@[simp] theorem State.writeReg_p (i : Nat) (v : Seq) : (s.writeReg i v).p = s.p := by cases i <;> rfl
@[simp] theorem State.writeReg_k (i : Nat) (v : Seq) : (s.writeReg i v).k = s.k := by cases i <;> rfl
@[simp] theorem State.writeReg_maxSteps (i : Nat) (v : Seq) : (s.writeReg i v).maxSteps = s.maxSteps := by cases i <;> rfl
@[simp] theorem State.writeReg_progLen (i : Nat) (v : Seq) : (s.writeReg i v).progLen = s.progLen := by cases i <;> rfl
@[simp] theorem State.writeReg_phase (i : Nat) (v : Seq) : (s.writeReg i v).phase = s.phase := by cases i <;> rfl
@[simp] theorem State.writeReg_cause (i : Nat) (v : Seq) : (s.writeReg i v).cause = s.cause := by cases i <;> rfl
@[simp] theorem State.writeReg_info (i : Nat) (v : Seq) : (s.writeReg i v).info = s.info := by cases i <;> rfl
@[simp] theorem State.writeReg_outValid (i : Nat) (v : Seq) : (s.writeReg i v).outValid = s.outValid := by cases i <;> rfl
@[simp] theorem State.writeReg_pc (i : Nat) (v : Seq) : (s.writeReg i v).pc = s.pc := by cases i <;> rfl
@[simp] theorem State.writeReg_stepcnt (i : Nat) (v : Seq) : (s.writeReg i v).stepcnt = s.stepcnt := by cases i <;> rfl
@[simp] theorem State.writeReg_lidx (i : Nat) (v : Seq) : (s.writeReg i v).lidx = s.lidx := by cases i <;> rfl
@[simp] theorem State.writeReg_trace (i : Nat) (v : Seq) : (s.writeReg i v).trace = s.trace := by cases i <;> rfl
@[simp] theorem State.writeReg_store (i : Nat) (v : Seq) : (s.writeReg i v).store = s.store := by cases i <;> rfl
@[simp] theorem State.writeReg_host (i : Nat) (v : Seq) : (s.writeReg i v).host = s.host := by cases i <;> rfl

@[simp] theorem State.latchLaunch_params (l : Launch) : (s.latchLaunch l).params = s.params := rfl
@[simp] theorem State.latchLaunch_n (l : Launch) : (s.latchLaunch l).n = l.n := rfl
@[simp] theorem State.latchLaunch_p (l : Launch) : (s.latchLaunch l).p = l.p := rfl
@[simp] theorem State.latchLaunch_k (l : Launch) : (s.latchLaunch l).k = l.k := rfl
@[simp] theorem State.latchLaunch_maxSteps (l : Launch) : (s.latchLaunch l).maxSteps = l.maxSteps := rfl
@[simp] theorem State.latchLaunch_progLen (l : Launch) : (s.latchLaunch l).progLen = l.progLen := rfl
@[simp] theorem State.latchLaunch_phase (l : Launch) : (s.latchLaunch l).phase = s.phase := rfl
@[simp] theorem State.latchLaunch_cause (l : Launch) : (s.latchLaunch l).cause = .none := rfl
@[simp] theorem State.latchLaunch_info (l : Launch) : (s.latchLaunch l).info = Info.zero := rfl
@[simp] theorem State.latchLaunch_outValid (l : Launch) : (s.latchLaunch l).outValid = false := rfl
@[simp] theorem State.latchLaunch_pc (l : Launch) : (s.latchLaunch l).pc = 1 := rfl
@[simp] theorem State.latchLaunch_stepcnt (l : Launch) : (s.latchLaunch l).stepcnt = 0 := rfl
@[simp] theorem State.latchLaunch_bank (l : Launch) : (s.latchLaunch l).bank = List.replicate l.p [] := rfl
@[simp] theorem State.latchLaunch_lidx (l : Launch) : (s.latchLaunch l).lidx = [] := rfl
@[simp] theorem State.latchLaunch_trace (l : Launch) : (s.latchLaunch l).trace = [] := rfl
@[simp] theorem State.latchLaunch_store (l : Launch) : (s.latchLaunch l).store = Memory.ofProgram l.program := rfl
@[simp] theorem State.latchLaunch_host (l : Launch) : (s.latchLaunch l).host = s.host := rfl

@[simp] theorem State.seed_params (l : Launch) : (s.seed l).params = s.params := rfl
@[simp] theorem State.seed_n (l : Launch) : (s.seed l).n = s.n := rfl
@[simp] theorem State.seed_p (l : Launch) : (s.seed l).p = s.p := rfl
@[simp] theorem State.seed_k (l : Launch) : (s.seed l).k = s.k := rfl
@[simp] theorem State.seed_maxSteps (l : Launch) : (s.seed l).maxSteps = s.maxSteps := rfl
@[simp] theorem State.seed_progLen (l : Launch) : (s.seed l).progLen = s.progLen := rfl
@[simp] theorem State.seed_phase (l : Launch) : (s.seed l).phase = .run := rfl
@[simp] theorem State.seed_cause (l : Launch) : (s.seed l).cause = s.cause := rfl
@[simp] theorem State.seed_info (l : Launch) : (s.seed l).info = s.info := rfl
@[simp] theorem State.seed_outValid (l : Launch) : (s.seed l).outValid = true := rfl
@[simp] theorem State.seed_pc (l : Launch) : (s.seed l).pc = 1 := rfl
@[simp] theorem State.seed_stepcnt (l : Launch) : (s.seed l).stepcnt = 0 := rfl
@[simp] theorem State.seed_bank (l : Launch) : (s.seed l).bank = seedBank l := rfl
@[simp] theorem State.seed_lidx (l : Launch) : (s.seed l).lidx = s.lidx := rfl
@[simp] theorem State.seed_trace (l : Launch) : (s.seed l).trace = s.trace := rfl
@[simp] theorem State.seed_store (l : Launch) : (s.seed l).store = s.store := rfl
@[simp] theorem State.seed_host (l : Launch) : (s.seed l).host = s.host := rfl

@[simp] theorem State.setPc_setPc (a b : Nat) : (s.setPc a).setPc b = s.setPc b := rfl

@[simp] theorem State.readReg_setPc (pos i : Nat) : (s.setPc pos).readReg i = s.readReg i := by cases i <;> rfl

@[simp] theorem State.readReg_nextPc (i : Nat) : s.nextPc.readReg i = s.readReg i := by cases i <;> rfl

@[simp] theorem State.readReg_raiseHalt (h : Halt) (i : Nat) : (s.raiseHalt h).readReg i = s.readReg i := by
  cases i <;> rfl

@[simp] theorem State.readReg_emit (i : Nat) : s.emit.readReg i = s.readReg i := by cases i <;> rfl

@[simp] theorem State.readReg_countUp (i : Nat) : s.countUp.readReg i = s.readReg i := by cases i <;> rfl

@[simp] theorem State.readReg_withHost (rest : List HostEvent) (i : Nat) : (s.withHost rest).readReg i = s.readReg i := by
  cases i <;> rfl

@[simp] theorem State.afterQuiet_params : s.afterQuiet.params = s.params := rfl
@[simp] theorem State.afterQuiet_n : s.afterQuiet.n = s.n := rfl
@[simp] theorem State.afterQuiet_p : s.afterQuiet.p = s.p := rfl
@[simp] theorem State.afterQuiet_k : s.afterQuiet.k = s.k := rfl
@[simp] theorem State.afterQuiet_maxSteps : s.afterQuiet.maxSteps = s.maxSteps := rfl
@[simp] theorem State.afterQuiet_progLen : s.afterQuiet.progLen = s.progLen := rfl
@[simp] theorem State.afterQuiet_phase : s.afterQuiet.phase = s.phase := rfl
@[simp] theorem State.afterQuiet_cause : s.afterQuiet.cause = s.cause := rfl
@[simp] theorem State.afterQuiet_info : s.afterQuiet.info = s.info := rfl
@[simp] theorem State.afterQuiet_outValid : s.afterQuiet.outValid = s.outValid := rfl
@[simp] theorem State.afterQuiet_pc : s.afterQuiet.pc = s.pc := rfl
@[simp] theorem State.afterQuiet_stepcnt : s.afterQuiet.stepcnt = s.stepcnt := rfl
@[simp] theorem State.afterQuiet_bank : s.afterQuiet.bank = s.bank := rfl
@[simp] theorem State.afterQuiet_lidx : s.afterQuiet.lidx = s.lidx := rfl
@[simp] theorem State.afterQuiet_trace : s.afterQuiet.trace = s.trace := rfl
@[simp] theorem State.afterQuiet_store : s.afterQuiet.store = s.store := rfl
@[simp] theorem State.afterQuiet_host : s.afterQuiet.host = s.host.tail := rfl

@[simp] theorem State.readReg_afterQuiet (i : Nat) : s.afterQuiet.readReg i = s.readReg i := by cases i <;> rfl

end Sys2Proof.Machine
end

