-- ==== Sys2Proof/Laws/Regs.lean ====
section
/-! SUPPORT. The register bank: read after write, every other register unchanged, the bank's size and the facts
about all its registers kept. -/

namespace Sys2Proof.Machine

theorem State.readReg_pos (s : State) {i : Nat} (h : 1 ≤ i) : s.readReg i = s.bank.getD (i - 1) [] := by
  cases i with
  | zero => omega
  | succ i => rfl

theorem State.writeReg_pos (s : State) {i : Nat} (v : Seq) (h : 1 ≤ i) :
    s.writeReg i v = { s with bank := s.bank.set (i - 1) v } := by
  cases i with
  | zero => omega
  | succ i => rfl

@[simp] theorem State.writeReg_bank_length (s : State) (i : Nat) (v : Seq) :
    (s.writeReg i v).bank.length = s.bank.length := by
  cases i with
  | zero => rfl
  | succ i => simp [State.writeReg]

theorem State.readReg_writeReg_self (s : State) {i : Nat} (v : Seq) (h : 1 ≤ i) (h' : i ≤ s.bank.length) :
    (s.writeReg i v).readReg i = v := by
  obtain ⟨i, rfl⟩ : ∃ d, i = d + 1 := ⟨i - 1, by omega⟩
  simp [State.writeReg, State.readReg, List.getD, Nat.lt_of_succ_le h']

theorem State.readReg_writeReg_of_ne (s : State) {i r : Nat} (v : Seq) (h : r ≠ i) :
    (s.writeReg i v).readReg r = s.readReg r := by
  cases i with
  | zero => rfl
  | succ i =>
    cases r with
    | zero => rfl
    | succ r =>
      have : i ≠ r := fun e => h (by rw [e])
      simp [State.writeReg, State.readReg, List.getD, this]

theorem State.writeReg_readReg (s : State) (i : Nat) : s.writeReg i (s.readReg i) = s := by
  cases i with
  | zero => rfl
  | succ i =>
    have : s.bank.set i (s.bank.getD i []) = s.bank := by
      apply List.ext_getElem?
      intro r
      rw [List.getElem?_set]
      split
      · rename_i e; subst e
        split
        · rename_i hl; simp [List.getD, List.getElem?_eq_getElem hl]
        · rename_i hl; rw [List.getElem?_eq_none (by omega)]
      · rfl
    show { s with bank := s.bank.set i (s.bank.getD i []) } = s
    rw [this]

/-- A register that is read is one of the bank, or empty. -/
theorem State.readReg_mem (s : State) (i : Nat) : s.readReg i ∈ s.bank ∨ s.readReg i = [] := by
  cases i with
  | zero => exact .inr rfl
  | succ i =>
    show s.bank.getD i [] ∈ s.bank ∨ s.bank.getD i [] = []
    by_cases h : i < s.bank.length
    · left; simp [List.getD, List.getElem?_eq_getElem h]
    · right; simp [List.getD, List.getElem?_eq_none (Nat.le_of_not_lt h)]

/-- A register after a write is the value written or one of the old bank. -/
theorem State.mem_writeReg_bank {s : State} {i : Nat} {v w : Seq} (h : w ∈ (s.writeReg i v).bank) :
    w = v ∨ w ∈ s.bank := by
  cases i with
  | zero => exact .inr h
  | succ i => exact (List.mem_or_eq_of_mem_set h).symm

/-- A property of all registers, and of the empty sequence, is one of the register read. -/
theorem State.forall_readReg {s : State} {P : Seq → Prop} (h : ∀ v ∈ s.bank, P v) (h0 : P []) (i : Nat) :
    P (s.readReg i) := by
  rcases s.readReg_mem i with hm | he
  · exact h _ hm
  · rw [he]; exact h0

/-- A property of all registers survives a write of a value that has it. -/
theorem State.forall_writeReg {s : State} {P : Seq → Prop} (h : ∀ v ∈ s.bank, P v) {i : Nat} {v : Seq} (hv : P v) :
    ∀ w ∈ (s.writeReg i v).bank, P w := by
  intro w hw
  rcases State.mem_writeReg_bank hw with rfl | hw
  · exact hv
  · exact h w hw

end Sys2Proof.Machine
end

