-- ==== Sys2Proof/Laws/Tables.lean ====
section
/-! SUPPORT. The laws of tables: read after write, everywhere else unchanged, the canonical form kept; and the
same for the program store. -/

namespace Sys2Proof.Machine

variable {α : Type}

@[simp] theorem Table.get_nil (key : Nat) : Table.get ([] : Table α) key = none := rfl

theorem Table.get_put (t : Table α) (key key' : Nat) (v : α) :
    Table.get (Table.put t key v) key' = if key = key' then some v else Table.get t key' := by
  induction t with
  | nil => simp [Table.put, Table.get]
  | cons e rest ih =>
    obtain ⟨k, w⟩ := e
    simp only [Table.put]
    split
    · simp [Table.get]
    · split
      · subst k; by_cases h : key = key' <;> simp [Table.get, h]
      · simp only [Table.get, ih]
        by_cases h : k = key' <;> by_cases h' : key = key' <;> simp_all

@[simp] theorem Table.get_put_self (t : Table α) (key : Nat) (v : α) :
    Table.get (Table.put t key v) key = some v := by simp [Table.get_put]

theorem Table.get_put_of_ne (t : Table α) {key key' : Nat} (v : α) (h : key ≠ key') :
    Table.get (Table.put t key v) key' = Table.get t key' := by simp [Table.get_put, h]

/-- The keys of a table after a `put`: the old ones and the new one. -/
theorem Table.mem_put {t : Table α} {key : Nat} {v : α} {e : Nat × α} (h : e ∈ Table.put t key v) :
    e = (key, v) ∨ e ∈ t := by
  induction t with
  | nil => simpa [Table.put] using h
  | cons d rest ih =>
    obtain ⟨k, w⟩ := d
    simp only [Table.put] at h
    split at h
    · simpa using h
    · split at h
      · rcases List.mem_cons.mp h with rfl | h
        · exact .inl rfl
        · exact .inr (List.mem_cons_of_mem _ h)
      · rcases List.mem_cons.mp h with rfl | h
        · exact .inr List.mem_cons_self
        · exact (ih h).imp_right (List.mem_cons_of_mem _)

theorem Table.sorted_put {t : Table α} (h : Table.Sorted t) (key : Nat) (v : α) :
    Table.Sorted (Table.put t key v) := by
  induction t with
  | nil => simp [Table.put]
  | cons d rest ih =>
    obtain ⟨k, w⟩ := d
    obtain ⟨hk, hr⟩ := List.pairwise_cons.mp h
    simp only [Table.put]
    split
    · rename_i hlt
      refine List.pairwise_cons.mpr ⟨fun e he => ?_, h⟩
      rcases List.mem_cons.mp he with rfl | he
      · exact hlt
      · exact Nat.lt_trans hlt (hk e he)
    · split
      · rename_i heq; subst heq
        exact List.pairwise_cons.mpr ⟨hk, hr⟩
      · refine List.pairwise_cons.mpr ⟨fun e he => ?_, ih hr⟩
        rcases Table.mem_put he with rfl | he
        · simp only; omega
        · exact hk e he

theorem Table.lt_of_mem_placeFrom {pos : Nat} {ws : List StoreWord} {e : Nat × StoreWord}
    (h : e ∈ Memory.placeFrom pos ws) : pos ≤ e.1 := by
  induction ws generalizing pos with
  | nil => simp [Memory.placeFrom] at h
  | cons c rest ih =>
    rcases List.mem_cons.mp h with rfl | h
    · exact Nat.le_refl _
    · exact Nat.le_of_succ_le (ih h)

theorem Memory.sorted_placeFrom (pos : Nat) (ws : List StoreWord) :
    Table.Sorted (Memory.placeFrom pos ws) := by
  induction ws generalizing pos with
  | nil => exact List.Pairwise.nil
  | cons c rest ih =>
    exact List.pairwise_cons.mpr ⟨fun e he => Table.lt_of_mem_placeFrom he, ih (pos + 1)⟩

theorem Memory.wf_iff (m : Memory) : Memory.wf m = true ↔ Table.Sorted m ∧ ∀ e ∈ m, 1 ≤ e.1 := by
  simp [Memory.wf, List.all_eq_true]

theorem Lidx.wf_iff (ix : Lidx) : Lidx.wf ix = true ↔ Table.Sorted ix := by simp [Lidx.wf]

/-- Placing a program keeps the canonical form. -/
theorem Memory.wf_ofProgram (ws : List StoreWord) : Memory.wf (Memory.ofProgram ws) = true :=
  (Memory.wf_iff _).mpr ⟨Memory.sorted_placeFrom 1 ws, fun _ he => Table.lt_of_mem_placeFrom he⟩

/-- Writing a position keeps the canonical form. -/
theorem Memory.wf_write {m : Memory} (h : Memory.wf m = true) (pos : Nat) (c : StoreWord) :
    Memory.wf (Memory.write m pos c) = true := by
  unfold Memory.write
  split
  · exact h
  · obtain ⟨hs, hp⟩ := (Memory.wf_iff _).mp h
    refine (Memory.wf_iff _).mpr ⟨Table.sorted_put hs _ _, fun e he => ?_⟩
    rcases Table.mem_put he with rfl | he
    · simp only; omega
    · exact hp e he

theorem Memory.read_write (m : Memory) (pos pos' : Nat) (c : StoreWord) (h : 1 ≤ pos) :
    Memory.read (Memory.write m pos c) pos' = if pos = pos' then some c else Memory.read m pos' := by
  have : pos ≠ 0 := by omega
  simp [Memory.read, Memory.write, this, Table.get_put]

theorem Memory.read_placeFrom (ws : List StoreWord) (base pos : Nat) :
    Memory.read (Memory.placeFrom base ws) pos = if base ≤ pos then ws[pos - base]? else none := by
  unfold Memory.read
  induction ws generalizing base with
  | nil => simp [Memory.placeFrom]
  | cons c rest ih =>
    simp only [Memory.placeFrom, Table.get, ih]
    by_cases h : base = pos
    · simp [h]
    · by_cases h' : base ≤ pos
      · have : base + 1 ≤ pos := by omega
        obtain ⟨d, rfl⟩ := Nat.exists_eq_add_of_le this
        have e1 : base + 1 + d - base = d + 1 := by omega
        have e2 : base + 1 + d - (base + 1) = d := by omega
        simp [h, h', e1, e2]
      · have : ¬ base + 1 ≤ pos := by omega
        simp [h, h', this]

/-- The host's placing of a program: position `pos` holds the `pos`-th instruction (20_memory.md R40). -/
theorem Memory.read_ofProgram (ws : List StoreWord) (pos : Nat) :
    Memory.read (Memory.ofProgram ws) pos = if 1 ≤ pos then ws[pos - 1]? else none :=
  Memory.read_placeFrom ws 1 pos

/-- Reading a store whose every word has been replaced by its image. -/
theorem Memory.read_map (f : StoreWord → StoreWord) (m : Memory) (pos : Nat) :
    Memory.read (m.map (fun e => (e.1, f e.2))) pos = (Memory.read m pos).map f := by
  unfold Memory.read
  induction m with
  | nil => rfl
  | cons e rest ih =>
    obtain ⟨k, w⟩ := e
    simp only [List.map, Table.get]
    split
    · rfl
    · exact ih

end Sys2Proof.Machine
end

