-- ==== Sys2Proof/Laws/Exec.lean ====
section
/-! SUPPORT. What an instruction can do, said once: the conditions, the operand check, the arbiter, and one
inversion lemma for the dispatcher. -/

namespace Sys2Proof.Machine

/-! The conditions. -/

@[simp] theorem isSymbol_iff (k j : Nat) : isSymbol k j = true ↔ 1 ≤ j ∧ j ≤ k := by simp [isSymbol]

@[simp] theorem namesReg_iff (p v : Nat) : namesReg p v = true ↔ 1 ≤ v ∧ v ≤ p := by simp [namesReg]

theorem atCapacity_iff (q : Params) (v : Seq) :
    atCapacity q v = true ↔ ∃ cap, q.cap = some cap ∧ cap ≤ v.length := by
  unfold atCapacity
  cases q.cap <;> simp

theorem guardHolds_iff (v : Seq) (j : Nat) : guardHolds v j = true ↔ ∃ rest, v = j :: rest := by
  cases v with
  | nil => simp [guardHolds]
  | cons a rest => simp [guardHolds]

/-! The operand check. -/

theorem firstBadField_y (p : Nat) (f : Fields) :
    firstBadField p f [.y] = if namesReg p f.y then none else some .y := by
  simp [firstBadField, RegField.value]

theorem firstBadField_x (p : Nat) (f : Fields) :
    firstBadField p f [.x] = if namesReg p f.x then none else some .x := by
  simp [firstBadField, RegField.value]

theorem firstBadField_xy (p : Nat) (f : Fields) :
    firstBadField p f [.x, .y] =
      if namesReg p f.x then (if namesReg p f.y then none else some .y) else some .x := by
  simp [firstBadField, RegField.value]

/-- The operand check lets `done` through or raises OperandError, nothing else. -/
theorem State.checkRegs_cases (s : State) (op : Opcode) (f : Fields) (done : State) :
    (firstBadField s.p f (regFields op) = none ∧ s.checkRegs op f done = done) ∨
      ∃ q, firstBadField s.p f (regFields op) = some q ∧
        s.checkRegs op f done = s.raiseHalt (.operand s.pc q (q.value f)) := by
  unfold State.checkRegs
  cases h : firstBadField s.p f (regFields op) with
  | none => exact .inl ⟨rfl, rfl⟩
  | some q => exact .inr ⟨q, rfl, rfl⟩

/-! The arbiter. -/

/-- A jump to be taken either reaches a listed target that obeys the direction, or raises one of its two halts. -/
theorem State.takeJump_cases (s : State) (label : Nat) (dir : Dir) :
    (∃ t, Table.get s.lidx label = some t ∧ directionOk dir t s.pc = true ∧ s.takeJump label dir = s.setPc t) ∨
      (Table.get s.lidx label = none ∧ s.takeJump label dir = s.raiseHalt (.missingLabel label s.pc)) ∨
      ∃ t, Table.get s.lidx label = some t ∧ directionOk dir t s.pc = false ∧
        s.takeJump label dir = s.raiseHalt (.directionViolation dir label s.pc t) := by
  unfold State.takeJump State.resolve
  cases h : Table.get s.lidx label with
  | none => exact .inr (.inl ⟨rfl, rfl⟩)
  | some t =>
    cases hd : directionOk dir t s.pc with
    | true => exact .inl ⟨t, rfl, hd, by simp [hd]⟩
    | false => exact .inr (.inr ⟨t, rfl, hd, by simp [hd]⟩)

/-- ADD's own rule: append, AlphabetError or CapacityError. -/
theorem State.appendSymbol_cases (s : State) (y j : Nat) :
    (isSymbol s.k j = true ∧ atCapacity s.params (s.readReg y) = false ∧
        s.appendSymbol y j = (s.writeReg y (seqAppend (s.readReg y) j)).nextPc) ∨
      (isSymbol s.k j = false ∧ s.appendSymbol y j = s.raiseHalt (.alphabetAdd s.pc j)) ∨
      (isSymbol s.k j = true ∧ atCapacity s.params (s.readReg y) = true ∧
        s.appendSymbol y j = s.raiseHalt (.capacity s.pc y)) := by
  unfold State.appendSymbol
  cases hj : isSymbol s.k j with
  | false => exact .inr (.inl ⟨rfl, by simp⟩)
  | true =>
    cases hc : atCapacity s.params (s.readReg y) with
    | false => exact .inl ⟨rfl, rfl, by simp⟩
    | true => exact .inr (.inr ⟨rfl, rfl, by simp⟩)

/-! The dispatcher. -/

/-- A halt's cause is never NONE. -/
theorem Halt.cause_ne_none (h : Halt) : h.cause ≠ .none := by cases h <;> simp [Halt.cause]

/-- The value a sequence instruction may write: an appended symbol, a popped, an empty or a copied sequence. -/
inductive Written (s : State) : Seq → Prop
  | appended (r j : Nat) (sym : 1 ≤ j ∧ j ≤ s.k) (room : atCapacity s.params (s.readReg r) = false) :
      Written s (seqAppend (s.readReg r) j)
  | popped (r : Nat) : Written s (seqPop (s.readReg r))
  | cleared : Written s seqClear
  | copied (r : Nat) : Written s (s.readReg r)

/-- A halt an instruction may raise: not the step limit's and not the decoder's, and OperandError only when an
operand names no register. -/
structure InstrHalt (i : Instr) (s : State) (h : Halt) : Prop where
  notLimit : h.cause ≠ .stepLimitExceededError
  notIllegal : h.cause ≠ .illegalInstruction
  operand : h.cause = .operandError → ¬ OperandsOk s i

/-- WHAT AN INSTRUCTION CAN DO: raise a halt; write its one register and go on; fall through; or jump, by a
listed label and in its own direction. -/
inductive Effect (i : Instr) (s : State) : State → Prop
  | halts (h : Halt) (raised : InstrHalt i s h) : Effect i s (s.raiseHalt h)
  | writes (r : Nat) (v : Seq) (dest : destReg i = some r) (inBank : 1 ≤ r ∧ r ≤ s.p) (value : Written s v) :
      Effect i s (s.writeReg r v).nextPc
  | falls (dest : destReg i = none) : Effect i s s.nextPc
  | jumps (pos : Nat) (dest : destReg i = none) (target : Table.get s.lidx i.fields.y = some pos)
      (dir : isBackward i = true ∧ pos < s.pc ∨ isForward i = true ∧ s.pc < pos) : Effect i s (s.setPc pos)

theorem InstrHalt.of_cause {i : Instr} {s : State} {h : Halt} (h1 : h.cause ≠ .stepLimitExceededError)
    (h2 : h.cause ≠ .illegalInstruction) (h3 : h.cause ≠ .operandError) : InstrHalt i s h :=
  ⟨h1, h2, fun e => absurd e h3⟩

theorem State.takeJump_effect {i : Instr} {s : State} {dir : Dir} (hd : destReg i = none)
    (hdir : (isBackward i = true ∧ dir = .earlier) ∨ (isForward i = true ∧ dir = .later)) :
    Effect i s (s.takeJump i.fields.y dir) := by
  rcases s.takeJump_cases i.fields.y dir with ⟨t, ht, ho, he⟩ | ⟨-, he⟩ | ⟨t, -, -, he⟩ <;> rw [he]
  · refine .jumps t hd ht ?_
    rcases hdir with ⟨hi, rfl⟩ | ⟨hi, rfl⟩
    · exact .inl ⟨hi, by simpa [directionOk] using ho⟩
    · exact .inr ⟨hi, by simpa [directionOk] using ho⟩
  · exact .halts _ (InstrHalt.of_cause (by simp [Halt.cause]) (by simp [Halt.cause]) (by simp [Halt.cause]))
  · exact .halts _ (InstrHalt.of_cause (by simp [Halt.cause]) (by simp [Halt.cause]) (by simp [Halt.cause]))

theorem State.condJump_effect {i : Instr} {s : State} {dir : Dir} (hd : destReg i = none)
    (hdir : (isBackward i = true ∧ dir = .earlier) ∨ (isForward i = true ∧ dir = .later)) :
    Effect i s (s.condJump i.fields dir) := by
  unfold State.condJump
  split
  · exact State.takeJump_effect hd hdir
  · exact .falls hd

theorem State.checkRegs_effect {i : Instr} {s done : State}
    (h : OperandsOk s i → Effect i s done) : Effect i s (s.checkRegs i.opcode i.fields done) := by
  rcases s.checkRegs_cases i.opcode i.fields done with ⟨hn, he⟩ | ⟨q, hq, he⟩ <;> rw [he]
  · exact h hn
  · exact .halts _ ⟨by simp [Halt.cause], by simp [Halt.cause], fun _ hn => by rw [OperandsOk, hq] at hn; cases hn⟩

/-- An instruction never faults and is never refused, and what it does is one of the effects. -/
theorem exec_effect (i : Instr) (s : State) : ∃ t, exec i s = .next t ∧ Effect i s t := by
  cases i with
  | add f =>
    refine ⟨_, rfl, State.checkRegs_effect (i := .add f) fun hb => ?_⟩
    have hy : namesReg s.p f.y = true := by simpa [OperandsOk, Instr.opcode, Instr.fields, regFields, firstBadField_y] using hb
    rcases s.appendSymbol_cases f.y f.j with ⟨hj, hc, he⟩ | ⟨-, he⟩ | ⟨-, -, he⟩ <;> rw [he]
    · exact .writes _ _ rfl (by simpa using hy) (.appended _ _ (by simpa using hj) hc)
    · exact .halts _ (InstrHalt.of_cause (by simp [Halt.cause]) (by simp [Halt.cause]) (by simp [Halt.cause]))
    · exact .halts _ (InstrHalt.of_cause (by simp [Halt.cause]) (by simp [Halt.cause]) (by simp [Halt.cause]))
  | tail f =>
    refine ⟨_, rfl, State.checkRegs_effect (i := .tail f) fun hb => ?_⟩
    have hy : namesReg s.p f.y = true := by simpa [OperandsOk, Instr.opcode, Instr.fields, regFields, firstBadField_y] using hb
    exact .writes _ _ rfl (by simpa using hy) (.popped _)
  | clr f =>
    refine ⟨_, rfl, State.checkRegs_effect (i := .clr f) fun hb => ?_⟩
    have hx : namesReg s.p f.x = true := by simpa [OperandsOk, Instr.opcode, Instr.fields, regFields, firstBadField_x] using hb
    exact .writes _ _ rfl (by simpa using hx) .cleared
  | assign f =>
    refine ⟨_, rfl, State.checkRegs_effect (i := .assign f) fun hb => ?_⟩
    have hx : namesReg s.p f.x = true := by
      by_contra hx
      simp [OperandsOk, Instr.opcode, Instr.fields, regFields, firstBadField_xy, hx] at hb
    exact .writes _ _ rfl (by simpa using hx) (.copied _)
  | gotoa f => exact ⟨_, rfl, State.checkRegs_effect (i := .gotoa f) fun _ => State.takeJump_effect (i := .gotoa f) rfl (.inl ⟨rfl, rfl⟩)⟩
  | gotob f => exact ⟨_, rfl, State.checkRegs_effect (i := .gotob f) fun _ => State.takeJump_effect (i := .gotob f) rfl (.inr ⟨rfl, rfl⟩)⟩
  | jmpa f => exact ⟨_, rfl, State.checkRegs_effect (i := .jmpa f) fun _ => State.condJump_effect (i := .jmpa f) rfl (.inl ⟨rfl, rfl⟩)⟩
  | jmpb f => exact ⟨_, rfl, State.checkRegs_effect (i := .jmpb f) fun _ => State.condJump_effect (i := .jmpb f) rfl (.inr ⟨rfl, rfl⟩)⟩
  | cont f => exact ⟨_, rfl, State.checkRegs_effect (i := .cont f) fun _ => .halts _ (InstrHalt.of_cause (by simp [Halt.cause]) (by simp [Halt.cause]) (by simp [Halt.cause]))⟩

/-- The inversion form: if exec answers a next state, it is one of the effects. -/
theorem effect_of_exec {i : Instr} {s t : State} (h : exec i s = .next t) : Effect i s t := by
  obtain ⟨t', ht', he⟩ := exec_effect i s
  rw [ht'] at h
  cases h
  exact he

/-- What no instruction writes. -/
theorem Effect.untouched {i : Instr} {s t : State} (h : Effect i s t) : UntouchedByInstr s t := by
  cases h <;> constructor <;> simp

/-! The operand check, both ways. -/

theorem State.checkRegs_ok {s : State} {op : Opcode} {f : Fields} {done : State}
    (h : firstBadField s.p f (regFields op) = none) : s.checkRegs op f done = done := by
  simp [State.checkRegs, h]

theorem State.checkRegs_bad {s : State} {op : Opcode} {f : Fields} {done : State} {q : RegField}
    (h : firstBadField s.p f (regFields op) = some q) :
    s.checkRegs op f done = s.raiseHalt (.operand s.pc q (q.value f)) := by
  simp [State.checkRegs, h]

/-! What INFO holds after a halt. -/

@[simp] theorem infoField_zero (q : Params) : infoField q 0 = 0 := by
  unfold infoField
  cases q.widths <;> simp

theorem infoField_fits {q : Params} {v : Nat} (h : fitsInfo q v = true) : infoField q v = v := by
  unfold fitsInfo at h
  unfold infoField
  cases hq : q.widths with
  | none => rfl
  | some W => rw [hq] at h; simp at h; simp [h]

theorem infoField_lt {q : Params} {W : Widths} (h : q.widths = some W) (v : Nat) : infoField q v < 2 ^ W.infoW := by
  unfold infoField
  rw [h]
  dsimp only
  split
  · assumption
  · exact (Config.wideInfo W.infoW v).isLt

/-- No instruction writes the store (20_memory.md R52). -/
theorem Effect.store_eq {i : Instr} {s t : State} (h : Effect i s t) : t.store = s.store := by
  cases h <;> simp

/-- An instruction that does not end the run leaves PHASE, CAUSE and INFO. -/
theorem Effect.status {i : Instr} {s t : State} (h : Effect i s t) :
    (t.phase = s.phase ∧ t.cause = s.cause ∧ t.info = s.info) ∨
      ∃ c, InstrHalt i s c ∧ t = s.raiseHalt c := by
  cases h with
  | halts c raised => exact .inr ⟨c, raised, rfl⟩
  | writes r v dest inBank value => exact .inl ⟨by simp, by simp, by simp⟩
  | falls dest => exact .inl ⟨rfl, rfl, rfl⟩
  | jumps pos dest target dir => exact .inl ⟨rfl, rfl, rfl⟩

end Sys2Proof.Machine
end

