-- ==== Sys2Proof/Laws/PerInstr.lean ====
section
/-! SUPPORT. Facts about every instruction as syntax, one lemma per constructor. -/

namespace Sys2Proof.Laws.Canonical

open Sys2Proof.Machine

/-- Writing 0 in the unused fields keeps the operation, the label, the register fields the opcode uses, and
well-formedness (30_encoding.md R65, R70). -/
def Statement (i : Instr) : Prop :=
  i.canonical.opcode = i.opcode ∧ i.canonical.fields.label = i.fields.label ∧
    (∀ q ∈ regFields i.opcode, q.value i.canonical.fields = q.value i.fields) ∧
    ∀ W, i.wf W = true → i.canonical.wf W = true

/-- Fields with some of x, j, y zeroed still fit. -/
theorem wf_zeroed {W : Widths} {f g : Fields} (h : f.wf W = true) (hl : g.label = f.label)
    (hx : g.x = f.x ∨ g.x = 0) (hj : g.j = f.j ∨ g.j = 0) (hy : g.y = f.y ∨ g.y = 0) : g.wf W = true := by
  simp only [Fields.wf, Fields.labelFits, Bool.and_eq_true, decide_eq_true_eq] at h ⊢
  obtain ⟨⟨⟨h1, h2⟩, h3⟩, h4⟩ := h
  rw [hl]
  refine ⟨⟨⟨h1, ?_⟩, ?_⟩, ?_⟩
  · rcases hx with e | e <;> rw [e] <;> first | assumption | exact Nat.two_pow_pos _
  · rcases hj with e | e <;> rw [e] <;> first | assumption | exact Nat.two_pow_pos _
  · rcases hy with e | e <;> rw [e] <;> first | assumption | exact Nat.two_pow_pos _

theorem add (f : Fields) : Statement (.add f) :=
  ⟨rfl, rfl, by simp [regFields, Instr.opcode, RegField.value, Instr.canonical, Instr.fields],
    fun _ h => wf_zeroed h rfl (.inr rfl) (.inl rfl) (.inl rfl)⟩

theorem tail (f : Fields) : Statement (.tail f) :=
  ⟨rfl, rfl, by simp [regFields, Instr.opcode, RegField.value, Instr.canonical, Instr.fields],
    fun _ h => wf_zeroed h rfl (.inr rfl) (.inr rfl) (.inl rfl)⟩

theorem clr (f : Fields) : Statement (.clr f) :=
  ⟨rfl, rfl, by simp [regFields, Instr.opcode, RegField.value, Instr.canonical, Instr.fields],
    fun _ h => wf_zeroed h rfl (.inl rfl) (.inr rfl) (.inr rfl)⟩

theorem assign (f : Fields) : Statement (.assign f) :=
  ⟨rfl, rfl, by simp [regFields, Instr.opcode, RegField.value, Instr.canonical, Instr.fields],
    fun _ h => wf_zeroed h rfl (.inl rfl) (.inr rfl) (.inl rfl)⟩

theorem gotoa (f : Fields) : Statement (.gotoa f) :=
  ⟨rfl, rfl, by simp [regFields, Instr.opcode], fun _ h => wf_zeroed h rfl (.inr rfl) (.inr rfl) (.inl rfl)⟩

theorem gotob (f : Fields) : Statement (.gotob f) :=
  ⟨rfl, rfl, by simp [regFields, Instr.opcode], fun _ h => wf_zeroed h rfl (.inr rfl) (.inr rfl) (.inl rfl)⟩

theorem jmpa (f : Fields) : Statement (.jmpa f) :=
  ⟨rfl, rfl, fun _ _ => rfl, fun _ h => h⟩

theorem jmpb (f : Fields) : Statement (.jmpb f) :=
  ⟨rfl, rfl, fun _ _ => rfl, fun _ h => h⟩

theorem cont (f : Fields) : Statement (.cont f) :=
  ⟨rfl, rfl, by simp [regFields, Instr.opcode], fun _ h => wf_zeroed h rfl (.inr rfl) (.inr rfl) (.inr rfl)⟩

end Sys2Proof.Laws.Canonical
end

