-- ==== Sys2Proof/Laws/Start.lean ====
section
/-! SUPPORT. The start sequence: what each check finds, what the Loader builds, and one inversion lemma for an
accepted `start`. -/

namespace Sys2Proof.Machine

/-! Input validation. -/

theorem firstBadSymbol_none {k index : Nat} {v : Seq} :
    firstBadSymbol k index v = none ↔ ∀ a ∈ v, 1 ≤ a ∧ a ≤ k := by
  induction v generalizing index with
  | nil => simp [firstBadSymbol]
  | cons a rest ih =>
    simp only [firstBadSymbol]
    split
    · rename_i h; simp [ih, (isSymbol_iff k a).mp h]
    · rename_i h; simp only [List.mem_cons, forall_eq_or_imp, reduceCtorEq, false_iff]
      exact fun hh => h ((isSymbol_iff k a).mpr hh.1)

theorem firstBadInput_none {k reg : Nat} {vs : List Seq} :
    firstBadInput k reg vs = none ↔ ∀ v ∈ vs, ∀ a ∈ v, 1 ≤ a ∧ a ≤ k := by
  induction vs generalizing reg with
  | nil => simp [firstBadInput]
  | cons v rest ih =>
    simp only [firstBadInput, List.mem_cons, forall_eq_or_imp, ← firstBadSymbol_none (k := k) (index := 0) (v := v)]
    cases firstBadSymbol k 0 v with
    | none => simp [ih]
    | some e => obtain ⟨i, a⟩ := e; simp

theorem firstTooLong_none {q : Params} {reg : Nat} {vs : List Seq} (h : firstTooLong q reg vs = none) {cap : Nat}
    (hc : q.cap = some cap) : ∀ v ∈ vs, v.length ≤ cap := by
  induction vs generalizing reg with
  | nil => simp
  | cons v rest ih =>
    simp only [firstTooLong, hc] at h
    split at h
    · cases h
    · intro w hw
      rcases List.mem_cons.mp hw with rfl | hw
      · omega
      · exact ih h w hw

/-- What a passed configuration check says. -/
theorem configFailure_none {q : Params} {l : Launch} (h : configFailure q l = none) :
    1 ≤ l.p ∧ l.n ≤ l.p ∧ 1 ≤ l.k ∧ overProgCap q l.progLen = false ∧ overStepCap q l.maxSteps = false ∧
      firstTooLong q 1 l.inputs = none := by
  unfold configFailure at h
  split at h
  · cases h
  · split at h
    · cases h
    · split at h
      · cases h
      · split at h
        · cases h
        · split at h
          · cases h
          · rename_i h1 h2 h3 h4 h5
            exact ⟨by omega, by omega, by omega, by simpa using h4, by simpa using h5, by simpa using h⟩

/-! The Loader. -/

/-- What the Loader keeps of its index while it reads positions from `pos` on: each listed label is declared at
its listed position, which is behind `pos`, and every position behind `pos` that declares a label is listed. -/
structure IndexUpTo (q : Params) (m : Memory) (base pos : Nat) (ix : Lidx) : Prop where
  sound : ∀ l t, Table.get ix l = some t → base ≤ t ∧ t < pos ∧ labelAt q m t = some l
  complete : ∀ l t, base ≤ t → t < pos → labelAt q m t = some l → Table.get ix l = some t

theorem IndexUpTo.skip {q : Params} {m : Memory} {base pos : Nat} {ix : Lidx} (h : IndexUpTo q m base pos ix)
    (hl : labelAt q m pos = none) : IndexUpTo q m base (pos + 1) ix where
  sound l t ht := by
    obtain ⟨h1, h2, h3⟩ := h.sound l t ht
    exact ⟨h1, by omega, h3⟩
  complete l t hb ht hlt := by
    rcases Nat.lt_succ_iff_lt_or_eq.mp ht with ht | rfl
    · exact h.complete l t hb ht hlt
    · rw [hl] at hlt; cases hlt

theorem IndexUpTo.insert {q : Params} {m : Memory} {base pos l : Nat} {ix : Lidx} (h : IndexUpTo q m base pos ix)
    (hb : base ≤ pos) (hl : labelAt q m pos = some l) (hn : Table.get ix l = none) :
    IndexUpTo q m base (pos + 1) (Table.put ix l pos) where
  sound l' t ht := by
    rw [Table.get_put] at ht
    split at ht
    · rename_i e; subst e; cases ht; exact ⟨hb, by omega, hl⟩
    · obtain ⟨h1, h2, h3⟩ := h.sound l' t ht
      exact ⟨h1, by omega, h3⟩
  complete l' t hbt ht hlt := by
    rw [Table.get_put]
    rcases Nat.lt_succ_iff_lt_or_eq.mp ht with ht | rfl
    · have := h.complete l' t hbt ht hlt
      split
      · rename_i e; subst e; rw [hn] at this; cases this
      · exact this
    · rw [hl] at hlt; cases hlt; simp

/-- How loading ends: with the exact index of all positions read, or at the first position whose label was already
listed, with the exact index of the positions before it. -/
theorem loadLabels_cases {q : Params} {m : Memory} {base : Nat} (count : Nat) {pos : Nat} {ix : Lidx}
    (h : IndexUpTo q m base pos ix) (hb : base ≤ pos) (hs : Table.Sorted ix) :
    (∃ ix', loadLabels q m pos count ix = .indexed ix' ∧ IndexUpTo q m base (pos + count) ix' ∧ Table.Sorted ix') ∨
      ∃ l first second ix', loadLabels q m pos count ix = .duplicate l first second ix' ∧ Table.Sorted ix' ∧
        pos ≤ second ∧ second < pos + count ∧ IndexUpTo q m base second ix' ∧
        labelAt q m second = some l ∧ Table.get ix' l = some first := by
  induction count generalizing pos ix with
  | zero => exact .inl ⟨ix, rfl, h, hs⟩
  | succ count ih =>
    simp only [loadLabels]
    cases hl : labelAt q m pos with
    | none =>
      rcases ih (h.skip hl) (by omega) hs with ⟨ix', he, hi, hs'⟩ | ⟨l, first, second, ix', he, hs', h1, h2, h3, h4, h5⟩
      · exact .inl ⟨ix', he, by rwa [Nat.add_right_comm] at hi, hs'⟩
      · exact .inr ⟨l, first, second, ix', he, hs', by omega, by omega, h3, h4, h5⟩
    | some l =>
      cases hg : Table.get ix l with
      | some first => exact .inr ⟨l, first, pos, ix, by simp [hg], hs, by omega, by omega, h, hl, hg⟩
      | none =>
        simp only [hg]
        rcases ih (h.insert hb hl hg) (by omega) (Table.sorted_put hs l pos) with
          ⟨ix', he, hi, hs'⟩ | ⟨l', first, second, ix', he, hs', h1, h2, h3, h4, h5⟩
        · exact .inl ⟨ix', he, by rwa [Nat.add_right_comm] at hi, hs'⟩
        · exact .inr ⟨l', first, second, ix', he, hs', by omega, by omega, h3, h4, h5⟩

/-- Before the first position the empty index is exact. -/
theorem IndexUpTo.empty (q : Params) (m : Memory) : IndexUpTo q m 1 1 [] where
  sound l t ht := by simp at ht
  complete l t hb ht _ := by omega

/-! The start sequence. -/

theorem seedBank_length {l : Launch} (h : l.inputs.length ≤ l.p) : (seedBank l).length = l.p := by
  simp [seedBank]; omega

theorem mem_seedBank {l : Launch} {v : Seq} (h : v ∈ seedBank l) : v ∈ l.inputs ∨ v = [] := by
  rcases List.mem_append.mp h with h | h
  · exact .inl h
  · exact .inr (List.eq_of_mem_replicate h)

/-- What an accepted `start` leaves: a pre-execution failure, or a run about to take its first step. -/
inductive Started (l : Launch) (s : State) : State → Prop
  | fails (h : Halt) (notLimit : h.cause ≠ .stepLimitExceededError) (ix : Lidx) (sorted : Table.Sorted ix)
      (inProgram : ∀ lab t, Table.get ix lab = some t → 1 ≤ t ∧ t ≤ l.progLen) :
      Started l s (({ s.latchLaunch l with lidx := ix }).raiseHalt h)
  | runs (config : configFailure s.params l = none) (inputs : firstBadInput l.k 1 l.inputs = none)
      (count : l.inputs.length = l.n) (held : l.progLen ≤ l.program.length) (ix : Lidx) (sorted : Table.Sorted ix)
      (index : IndexUpTo s.params (Memory.ofProgram l.program) 1 (1 + l.progLen) ix) :
      Started l s (({ s.latchLaunch l with lidx := ix }).seed l)

theorem State.loadAndSeed_started {s : State} {l : Launch} (hc : configFailure s.params l = none)
    (hi : firstBadInput l.k 1 l.inputs = none) (hn : l.inputs.length = l.n) (hh : l.progLen ≤ l.program.length) :
    Started l s ((s.latchLaunch l).loadAndSeed l) := by
  unfold State.loadAndSeed
  rcases loadLabels_cases l.progLen (IndexUpTo.empty s.params (Memory.ofProgram l.program)) (Nat.le_refl 1)
      (List.Pairwise.nil) with ⟨ix, he, hx, hs⟩ | ⟨lab, first, second, ix, he, hs, h1, h2, hx, -, -⟩
  · simp only [State.latchLaunch_params, State.latchLaunch_store, State.latchLaunch_progLen, he]
    exact .runs hc hi hn hh ix hs hx
  · simp only [State.latchLaunch_params, State.latchLaunch_store, State.latchLaunch_progLen, he]
    refine .fails _ (by simp [Halt.cause]) ix hs fun lab' t ht => ?_
    obtain ⟨h3, h4, -⟩ := hx.sound lab' t ht
    omega

/-- WHAT AN ACCEPTED `start` CAN DO, when it is not refused. -/
theorem State.acceptStart_started {s t : State} {l : Launch} (h : s.acceptStart l = .next t) :
    l.onPorts s.params = true ∧ l.inputs.length = l.n ∧ Started l s t := by
  unfold State.acceptStart at h
  split at h
  · cases h
  rename_i hp
  split at h
  · cases h
  rename_i hn
  refine ⟨by simpa using hp, by simpa using hn, ?_⟩
  split at h
  · cases h
    exact .fails _ (by simp [Halt.cause]) [] List.Pairwise.nil (by simp)
  split at h
  · cases h
    exact .fails _ (by simp [Halt.cause]) [] List.Pairwise.nil (by simp)
  split at h
  · cases h
  · cases h
    exact State.loadAndSeed_started (by assumption) (by assumption) (by simpa using hn) (by omega)

/-- The configuration check passes exactly when `ConfigOk` says so. -/
theorem configFailure_of_ok {q : Params} {l : Launch} (h : ConfigOk q l) : configFailure q l = none := by
  obtain ⟨h1, h2, h3, hw, hc⟩ := h
  have h4 : overProgCap q l.progLen = false := by
    unfold overProgCap
    cases hW : q.widths with
    | none => rfl
    | some W => simp [(hw W hW).1]
  have h5 : overStepCap q l.maxSteps = false := by
    unfold overStepCap
    cases hW : q.widths with
    | none => rfl
    | some W => simp [(hw W hW).2]
  have h6 : ∀ (vs : List Sys2Proof.Seq) (reg : Nat), (∀ cap, q.cap = some cap → ∀ v ∈ vs, v.length ≤ cap) →
      firstTooLong q reg vs = none := by
    intro vs
    induction vs with
    | nil => intros; rfl
    | cons w ws ih =>
      intro reg h
      unfold firstTooLong
      cases hc : q.cap with
      | none => rfl
      | some cap =>
        have := h cap hc w (by simp)
        simp only
        rw [if_neg (by omega)]
        exact ih _ (fun c hc' v hv => h c hc' v (by simp [hv]))
  unfold configFailure
  rw [if_neg (by omega), if_neg (by omega), if_neg (by omega), if_neg (by simp [h4]), if_neg (by simp [h5]), h6 _ _ hc]
  rfl

theorem configOk_of_none {q : Params} {l : Launch} (h : configFailure q l = none) : ConfigOk q l := by
  obtain ⟨h1, h2, h3, h4, h5, h6⟩ := configFailure_none h
  refine ⟨h1, h2, h3, fun W hW => ?_, fun cap hc => firstTooLong_none h6 hc⟩
  simp only [overProgCap, overStepCap, hW, decide_eq_false_iff_not, Nat.not_lt] at h4 h5
  exact ⟨h4, h5⟩

end Sys2Proof.Machine
end

