-- ==== Sys2Proof/Laws/Protocol.lean ====
section
/-! SUPPORT. The step: item 5, the block's own step, and one inversion lemma for a transition. -/

namespace Sys2Proof.Machine

/-- Fetch looks at the store, PC and the parameters only. -/
@[simp] theorem State.fetch_emit (s : State) : s.emit.fetch = s.fetch := rfl

@[simp] theorem State.fetch_withHost (s : State) (rest : List HostEvent) : (s.withHost rest).fetch = s.fetch := rfl

theorem State.pcOutside_iff (s : State) : s.pcOutside = true ↔ s.pc < 1 ∨ s.progLen < s.pc := by
  simp [State.pcOutside]

@[simp] theorem State.pcOutside_emit (s : State) : s.emit.pcOutside = s.pcOutside := rfl

/-- What fetch finds at PC is what `instrAt` finds there. -/
theorem State.instrAt_pc {s : State} {word : Nat} {i : Instr} (h : s.fetch = some ⟨word, .instr i⟩) :
    s.instrAt s.pc = some i := by
  have : (s.setPc s.pc).fetch = some ⟨word, .instr i⟩ := h
  simp [State.instrAt, this]

/-- Item 5 outside RUN does nothing. -/
theorem State.countStep_of_halted {s : State} (h : s.phase = .halted) : s.countStep = s := by
  simp [State.countStep, h]

/-- Item 5 in RUN: the count, and the limit. -/
theorem State.countStep_of_run {s : State} (h : s.phase = .run) :
    (s.stepcnt + 1 ≤ s.maxSteps ∧ s.countStep = s.countUp) ∨
      (s.maxSteps < s.stepcnt + 1 ∧
        s.countStep = s.countUp.raiseHalt (.stepLimitExceeded (s.stepcnt + 1) s.maxSteps)) := by
  by_cases hl : s.maxSteps < s.stepcnt + 1
  · exact .inr ⟨hl, by simp [State.countStep, h, hl]⟩
  · exact .inl ⟨by omega, by simp [State.countStep, h, hl]⟩

/-- WHAT A STEP OF A RUN CAN DO: end the run because PC left the program or the word is illegal, or run the decoded
instruction on the state with the snapshot, and count it. -/
inductive Stepped (s : State) : State → Prop
  | leaves (outside : s.pc < 1 ∨ s.progLen < s.pc) :
      Stepped s (s.emit.raiseHalt (.pcOutOfRange s.pc s.progLen))
  | illegal (word : Nat) (inRange : 1 ≤ s.pc ∧ s.pc ≤ s.progLen) (noInstr : s.instrAt s.pc = none) :
      Stepped s (s.emit.raiseHalt (.illegalInstruction s.pc word))
  | runs (i : Instr) (t : State) (inRange : 1 ≤ s.pc ∧ s.pc ≤ s.progLen) (fetched : s.instrAt s.pc = some i)
      (executed : exec i s.emit = .next t) (effect : Effect i s.emit t) : Stepped s t.countStep

theorem State.protocolStep_stepped {s t : State} (h : s.protocolStep = .next t) : Stepped s t := by
  unfold State.protocolStep at h
  split at h
  · cases h
    exact .leaves ((s.pcOutside_iff).mp (by assumption))
  rename_i hr
  have hr' : ¬ (s.pc < 1 ∨ s.progLen < s.pc) := fun hh => hr ((s.pcOutside_iff).mpr hh)
  split at h
  · cases h
  rename_i fetched hf
  split at h
  · rename_i why hd
    cases h
    refine .illegal _ ⟨by omega, by omega⟩ ?_
    have : (s.setPc s.pc).fetch = some fetched := hf
    simp [State.instrAt, this, hd]
  rename_i i hi
  obtain ⟨u, hu, he⟩ := exec_effect i s.emit
  simp only [State.runInstr, hu, Host.Outcome.next.injEq] at h
  subst h
  refine .runs i u ⟨by omega, by omega⟩ ?_ hu he
  obtain ⟨w, d⟩ := fetched
  simp only at hi
  subst hi
  exact State.instrAt_pc hf

/-- In the whole a step of a run faults only for want of a word. -/
theorem State.protocolStep_of_fetch {s : State} (h : s.pcOutside = true ∨ ∃ f, s.fetch = some f) :
    ∃ t, s.protocolStep = .next t := by
  unfold State.protocolStep
  split
  · exact ⟨_, rfl⟩
  rename_i hr
  rcases h with h | ⟨f, hf⟩
  · exact absurd h hr
  simp only [State.fetch_emit, hf]
  split
  · exact ⟨_, rfl⟩
  rename_i i _
  obtain ⟨u, hu, -⟩ := exec_effect i s.emit
  exact ⟨u.countStep, by simp only [State.runInstr, hu]⟩

/-- WHAT A TRANSITION CAN DO, when it answers a next state: a step of a run, an accepted start, a start ignored in
RUN, a reset, or nothing but the host's `quiet` taken. -/
inductive Transitioned (s : State) : State → Prop
  | stepped (t : State) (running : Running s) (step : Stepped s.afterQuiet t) : Transitioned s t
  | holds (quiet : Quiet s) (notRun : s.phase ≠ .run) : Transitioned s s.afterQuiet
  | started (rest : List HostEvent) (l : Launch) (t : State) (pending : StartPending s l rest)
      (start : Started l (s.withHost rest) t) : Transitioned s t
  | ignored (rest : List HostEvent) (l : Launch) (pending : s.host = .start l :: rest) (inRun : s.phase = .run) :
      Transitioned s (s.withHost rest)
  | reset (rest : List HostEvent) (pending : s.host = .reset :: rest) : Transitioned s (s.withHost rest).assertReset

/-- A quiet step is the block's own step on the state with the host's `quiet` taken. -/
theorem step_of_quiet {s : State} (h : Quiet s) : step s = s.afterQuiet.blockStep := by
  rcases h with h | ⟨rest, h⟩
  · have : s.afterQuiet = s := by simp [State.afterQuiet, h, State.withHost]; rw [← h]
    rw [this]
    simp [step, State.transition, h]
  · simp [step, State.transition, h, State.afterQuiet]

/-- A run left alone takes a step of its own. -/
theorem step_of_running {s : State} (h : Running s) : step s = s.afterQuiet.protocolStep := by
  rw [step_of_quiet h.2]
  have : s.afterQuiet.phase = .run := h.1
  unfold State.blockStep
  rw [this]

/-- A start outside RUN is accepted. -/
theorem step_of_start {s : State} {l : Launch} {rest : List HostEvent} (h : s.host = .start l :: rest)
    (hp : s.phase ≠ .run) : step s = (s.withHost rest).acceptStart l := by
  simp only [step, State.transition, h, State.pulseStart, State.withHost_phase]
  cases hs : s.phase with
  | run => exact absurd hs hp
  | idle => rfl
  | halted => rfl

theorem transitioned_of_quiet {s t : State} (hq : Quiet s) (h : step s = .next t) : Transitioned s t := by
  rw [step_of_quiet hq] at h
  unfold State.blockStep at h
  split at h
  · rename_i hp
    exact .stepped t ⟨hp, hq⟩ (State.protocolStep_stepped h)
  · rename_i hp
    cases h; exact .holds hq (by rw [show s.phase = .idle from hp]; simp)
  · rename_i hp
    cases h; exact .holds hq (by rw [show s.phase = .halted from hp]; simp)

/-- The inversion lemma of the step function. -/
theorem step_transitioned {s t : State} (h : step s = .next t) : Transitioned s t := by
  cases hh : s.host with
  | nil => exact transitioned_of_quiet (.inl hh) h
  | cons e rest =>
    cases e with
    | quiet => exact transitioned_of_quiet (.inr ⟨rest, hh⟩) h
    | start l =>
      by_cases hp : s.phase = .run
      · simp only [step, State.transition, hh, State.pulseStart, State.withHost_phase, hp,
          Host.Outcome.next.injEq] at h
        subst h
        exact .ignored rest l hh hp
      · rw [step_of_start hh hp] at h
        obtain ⟨h1, h2, h3⟩ := State.acceptStart_started h
        exact .started rest l t ⟨hh, hp, h1, h2⟩ h3
    | reset =>
      simp only [step, State.transition, hh, Host.Outcome.next.injEq] at h
      subst h
      exact .reset rest hh

/-! A step on a decoded instruction. -/

theorem State.fetch_of_instrAt {s : State} {i : Instr} (h : s.instrAt s.pc = some i) :
    ∃ w, s.fetch = some ⟨w, .instr i⟩ := by
  unfold State.instrAt at h
  rw [show (s.setPc s.pc).fetch = s.fetch from rfl] at h
  cases hf : s.fetch with
  | none => simp [hf] at h
  | some fetched =>
    obtain ⟨w, d⟩ := fetched
    cases d with
    | instr j => simp [hf] at h; subst h; exact ⟨w, rfl⟩
    | illegal why => simp [hf] at h

/-- With PC in range and an instruction there, step is exec on the state with the snapshot, then item 5. -/
theorem step_of_instrAt {s u : State} {i : Instr} (hr : Running s) (hp : PcInRange s) (hi : s.instrAt s.pc = some i)
    (hu : exec i s.afterQuiet.emit = .next u) : step s = .next u.countStep := by
  obtain ⟨w, hf⟩ := State.fetch_of_instrAt hi
  have hf' : s.afterQuiet.fetch = some ⟨w, .instr i⟩ := hf
  have hout : s.afterQuiet.pcOutside = false := by
    by_contra hh
    have : s.pc < 1 ∨ s.progLen < s.pc := (s.afterQuiet.pcOutside_iff).mp (by simpa using hh)
    obtain ⟨h1, h2⟩ := hp
    omega
  rw [step_of_running hr]
  simp [State.protocolStep, hout, hf', State.runInstr, hu]

/-- Item 5 writes PHASE, CAUSE, INFO and STEPCNT only. -/
theorem State.countStep_untouched (s : State) :
    s.countStep.params = s.params ∧ s.countStep.n = s.n ∧ s.countStep.p = s.p ∧ s.countStep.k = s.k ∧
    s.countStep.maxSteps = s.maxSteps ∧ s.countStep.progLen = s.progLen ∧ s.countStep.lidx = s.lidx ∧
    s.countStep.outValid = s.outValid ∧ s.countStep.store = s.store ∧ s.countStep.bank = s.bank ∧
    s.countStep.pc = s.pc ∧ s.countStep.trace = s.trace ∧ s.countStep.host = s.host := by
  unfold State.countStep
  split
  · split <;> simp
  · simp
  · simp

/-- What no step of a run writes, and the one snapshot it appends. -/
theorem Stepped.untouched {s t : State} (h : Stepped s t) :
    t.params = s.params ∧ t.n = s.n ∧ t.p = s.p ∧ t.k = s.k ∧ t.maxSteps = s.maxSteps ∧ t.progLen = s.progLen ∧
    t.lidx = s.lidx ∧ t.outValid = s.outValid ∧ t.store = s.store ∧ t.trace = s.trace ++ [⟨s.pc, s.bank⟩] ∧
    t.host = s.host := by
  cases h with
  | leaves _ => simp
  | illegal _ _ _ => simp
  | runs i u _ _ _ he =>
    have hu := he.untouched
    obtain ⟨c1, c2, c3, c4, c5, c6, c7, c8, c9, -, -, c12, c13⟩ := u.countStep_untouched
    refine ⟨?_, ?_, ?_, ?_, ?_, ?_, ?_, ?_, ?_, ?_, ?_⟩
    · rw [c1, hu.params]; rfl
    · rw [c2, hu.n]; rfl
    · rw [c3, hu.p]; rfl
    · rw [c4, hu.k]; rfl
    · rw [c5, hu.maxSteps]; rfl
    · rw [c6, hu.progLen]; rfl
    · rw [c7, hu.lidx]; rfl
    · rw [c8, hu.outValid]; rfl
    · rw [c9, he.store_eq]; rfl
    · rw [c12, hu.trace]; rfl
    · rw [c13, hu.host]; rfl

/-- A block that has halted and is left alone stays as it is, however long (40_startup_and_step_fsm.md R100). -/
theorem run_of_halted (count : Nat) {s : State} (hp : s.phase = .halted) (hh : s.host = []) :
    Host.Core.run Sys2Proof.core count s = .next s := by
  induction count with
  | zero => rfl
  | succ count ih =>
    have : Sys2Proof.core.step s = .next s := by
      show step s = .next s
      simp [step, State.transition, hh, State.blockStep, hp]
    simp only [Host.Core.run, this]
    exact ih

end Sys2Proof.Machine
end

