-- ==== Sys2Proof/Tests/Slice0.lean ====
section
/-! SUPPORT. The model's own tests: ill-formed terms refused, words written out from 30_encoding.md R62, single steps
with the results of spec/95_test_vectors.md, and for every obligation with hypotheses a concrete state that meets
them. A test's expected value is the one printed in the vector its comment names, or worked out by hand from the rule
it names. -/

namespace Sys2Proof.Tests

open Sys2Proof.Machine

/-! Helpers. -/

/-- A run at position 1 of a program of `REF32` words, K = 2 and MAX_STEPS = 100 unless overwritten. -/
def inRun (program : List Nat) (ix : Lidx) (bank : List Sys2Proof.Seq) : State :=
  { State.afterReset Params.ref32 (Memory.ofProgram (program.map StoreWord.packed)) [] with
    p := bank.length, k := 2, maxSteps := 100, progLen := program.length
    phase := .run, outValid := true, bank := bank, lidx := ix }

/-- A launch of `REF32` words, K = 2 and MAX_STEPS = 100 unless overwritten. -/
def launch (program : List Nat) (p : Nat) (inputs : List Sys2Proof.Seq) : Launch :=
  { n := inputs.length, p := p, k := 2, maxSteps := 100, progLen := program.length
    program := program.map StoreWord.packed, inputs := inputs }

/-- A block after reset with a start to come. -/
def startOf (l : Launch) : State := State.afterReset Params.ref32 [] [.start l]

/-- The next state, if there is one. -/
def next? (o : Host.Outcome State Fault Refusal) : Option State :=
  match o with
  | .next t => some t
  | .fault _ => none
  | .refused _ => none

/-- PC, the bank and STEPCNT of a step that goes on. -/
def goesOn (o : Host.Outcome State Fault Refusal) : Option (Nat × List Sys2Proof.Seq × Nat) :=
  match next? o with
  | some t => if t.phase = .run then some (t.pc, t.bank, t.stepcnt) else none
  | none => none

/-- What a vector gives of the end of a run: CAUSE, INFO, PC, the bank, STEPCNT and the length of TRACE. -/
structure End where
  cause    : Nat
  info     : Info
  pc       : Nat
  bank     : List Sys2Proof.Seq
  stepcnt  : Nat
  traceLen : Nat
  deriving DecidableEq, Repr

/-- The end of a run that a step ends. -/
def ends (o : Host.Outcome State Fault Refusal) : Option End :=
  match next? o with
  | some t =>
    if t.phase = .halted then some ⟨t.cause.code, t.info, t.pc, t.bank, t.stepcnt, t.trace.length⟩ else none
  | none => none

/-- The same run on an instance with a finite CAP. -/
def capped (cap : Nat) (s : State) : State := { s with params := { s.params with cap := some cap } }

/-! Well-formedness: one ill-formed term for each check. -/

theorem test_wf_accepts_widest : Instr.wf ref32Widths (.jmpb ⟨some 255, 15, 15, 255⟩) = true := by decide
theorem test_wf_refuses_label : Instr.wf ref32Widths (.cont ⟨some 256, 0, 0, 0⟩) = false := by decide
theorem test_wf_refuses_x : Instr.wf ref32Widths (.clr ⟨none, 16, 0, 0⟩) = false := by decide
theorem test_wf_refuses_j : Instr.wf ref32Widths (.add ⟨none, 0, 16, 1⟩) = false := by decide
theorem test_wf_refuses_y : Instr.wf ref32Widths (.gotob ⟨none, 0, 0, 256⟩) = false := by decide
theorem test_wf_refuses_narrow_pc : Widths.wf { ref32Widths with progCap := 65535 } = false := by decide
theorem test_wf_refuses_no_counter : Params.wf { Params.ref32 with widths := some { ref32Widths with cntW := 0 } } = false := by
  decide
theorem test_wf_accepts_ref32 : Params.wf Params.ref32 = true := by decide
theorem test_wf_refuses_long_word : StoreWord.wf Params.ref32 (.packed 0x100000000) = false := by decide
theorem test_wf_refuses_record_in_ref32 : StoreWord.wf Params.ref32 (.record none ⟨none, 0, 0, 0⟩) = false := by decide
theorem test_wf_refuses_packed_in_abs : StoreWord.wf Params.abs (.packed 0x9000) = false := by decide

/-! Decoding: the words, LV RES LABEL X OPCODE J Y from the top bit down (30_encoding.md R62). -/

/-- V-E2: `L1: ADD 1, R1`. -/
theorem test_decode_add :
    decode ref32Widths 0b1_000_00000001_0000_0001_0001_00000001 = .instr (.add ⟨some 1, 0, 1, 1⟩) := by decide
/-- V-E3: label 0 is a label; V-E4: no label. -/
theorem test_decode_tail :
    decode ref32Widths 0b1_000_00000000_0000_0010_0000_00000001 = .instr (.tail ⟨some 0, 0, 0, 1⟩) ∧
    decode ref32Widths 0b0_000_00000000_0000_0010_0000_00000001 = .instr (.tail ⟨none, 0, 0, 1⟩) := by decide
/-- V-E5. -/
theorem test_decode_clr :
    decode ref32Widths 0b0_000_00000000_0011_0011_0000_00000000 = .instr (.clr ⟨none, 3, 0, 0⟩) := by decide
/-- V-E6: X is the destination, Y the source. -/
theorem test_decode_assign :
    decode ref32Widths 0b0_000_00000000_0010_0100_0000_00000001 = .instr (.assign ⟨none, 2, 0, 1⟩) := by decide
/-- V-E7: Y = 0 is label 0. -/
theorem test_decode_gotoa :
    decode ref32Widths 0b0_000_00000000_0000_0101_0000_00000000 = .instr (.gotoa ⟨none, 0, 0, 0⟩) := by decide
/-- V-E8: the largest label. -/
theorem test_decode_gotob :
    decode ref32Widths 0b0_000_00000000_0000_0110_0000_11111111 = .instr (.gotob ⟨none, 0, 0, 255⟩) := by decide
/-- V-E9. -/
theorem test_decode_jmpa :
    decode ref32Widths 0b0_000_00000000_0001_0111_0010_00000011 = .instr (.jmpa ⟨none, 1, 2, 3⟩) := by decide
/-- V-E10. -/
theorem test_decode_jmpb :
    decode ref32Widths 0b1_000_00000100_0010_1000_0001_00000101 = .instr (.jmpb ⟨some 4, 2, 1, 5⟩) := by decide
/-- V-E12. -/
theorem test_decode_continue :
    decode ref32Widths 0b1_000_11111111_0000_1001_0000_00000000 = .instr (.cont ⟨some 255, 0, 0, 0⟩) := by decide
/-- V-E13, V-E14: the opcodes that select nothing. -/
theorem test_decode_illegal_opcode : ∀ op ∈ [0, 10, 11, 12, 13, 14, 15],
    decode ref32Widths (op * 0x1000) = .illegal .unknownOpcode := by decide
/-- V-E15: each RES bit. -/
theorem test_decode_reserved_bits : ∀ w ∈ [0x10001101, 0x20001101, 0x40001101],
    decode ref32Widths w = .illegal .reservedBits := by decide
/-- V-E18: with LV = 0 the LABEL bits are no label. -/
theorem test_decode_ignores_label_bits :
    decode ref32Widths 0x07F01101 = .instr (.add ⟨none, 0, 1, 1⟩) := by decide
/-- V-E1 to V-E12 as encodings. -/
theorem test_encode :
    encode ref32Widths (.add ⟨none, 0, 1, 1⟩) = 0x00001101 ∧ encode ref32Widths (.tail ⟨some 0, 0, 0, 1⟩) = 0x80002001 ∧
    encode ref32Widths (.clr ⟨none, 3, 0, 0⟩) = 0x00033000 ∧ encode ref32Widths (.assign ⟨none, 2, 0, 1⟩) = 0x00024001 ∧
    encode ref32Widths (.gotoa ⟨none, 0, 0, 0⟩) = 0x00005000 ∧ encode ref32Widths (.gotob ⟨none, 0, 0, 255⟩) = 0x000060FF ∧
    encode ref32Widths (.jmpa ⟨none, 1, 2, 3⟩) = 0x00017203 ∧ encode ref32Widths (.jmpb ⟨some 4, 2, 1, 5⟩) = 0x80428105 ∧
    encode ref32Widths (.cont ⟨some 255, 0, 0, 0⟩) = 0x8FF09000 := by decide
/-- A word of other widths (30_encoding.md R63), by hand: SYM_W 2, REG_W 1, LBL_W 3, no RES, Y_W 3, 14 bits:
`L5: JMPB R1, 2, L6` is 1 101 1 1000 10 110. -/
theorem test_decode_other_widths :
    decode ⟨2, 1, 3, 0, 4, 14, 4⟩ 0b1_101_1_1000_10_110 = .instr (.jmpb ⟨some 5, 1, 2, 6⟩) := by decide
/-- The host's reading of a table word, and the next fetch of it: `JMPB R1, 1, L3` of a run just started, whose
register is empty, goes on to position 2. -/
theorem test_table_word : decodeTableWord 32 0x00018103 = some (.jmpb ⟨none, 1, 1, 3⟩) ∧
    decodeTableWord 32 0x0000A000 = none := by decide
theorem test_withFetchWord :
    (next? (step (State.reset.withFetchWord 32 0x00018103))).map (fun t => (t.pc, t.stepcnt)) = some (2, 1) := by decide

/-! One step of each instruction. -/

/-- V-A2: at the end, not the front; the words are those of the vectors. -/
theorem test_add_appends : goesOn (step (inRun [0x00001201, 0x00009000] [] [[1, 1]])) = some (2, [[1, 1, 2]], 1) := by decide
/-- V-A4, V-A5: j = K + 1 and j = 0; V-A8, its third step, and V-PR5: a full register. -/
theorem test_add_halts :
    ends (step (inRun [0x00001301, 0x00009000] [] [[]])) = some ⟨2, ⟨1, 1, 0, 3⟩, 1, [[]], 0, 1⟩ ∧
    ends (step (inRun [0x00001001, 0x00009000] [] [[2]])) = some ⟨2, ⟨1, 1, 0, 0⟩, 1, [[2]], 0, 1⟩ ∧
    ends (step (capped 2 { inRun [0x00001101, 0x00001201, 0x00001101] [] [[1, 2]] with pc := 3, stepcnt := 2 }))
      = some ⟨10, ⟨3, 1, 0, 0⟩, 3, [[1, 2]], 2, 1⟩ ∧
    ends (step (capped 2 (inRun [0x00001301] [] [[1, 2]]))) = some ⟨2, ⟨1, 1, 0, 3⟩, 1, [[1, 2]], 0, 1⟩ := by decide
/-- V-T4: only R[Y] changes. -/
theorem test_tail_removes_first : goesOn (step (inRun [0x00002002, 0x00009000] [] [[1], [2, 1]])) = some (2, [[1], [1]], 1) := by
  decide
/-- V-T3: an empty register. -/
theorem test_tail_empty : goesOn (step (inRun [0x00002001, 0x00009000] [] [[]])) = some (2, [[]], 1) := by decide
/-- V-C4: the register is X; Y is ignored. -/
theorem test_clr : goesOn (step (inRun [0x00033002, 0x00009000] [] [[1], [2], [1, 1]])) = some (2, [[1], [2], []], 1) := by
  decide
/-- V-AS5: X is the destination, its old value goes. -/
theorem test_assign : goesOn (step (inRun [0x00024001, 0x00009000] [] [[1], [2, 2, 2]])) = some (2, [[1], [1]], 1) := by decide
/-- V-AS3: X = Y. -/
theorem test_assign_self : goesOn (step (inRun [0x00014001, 0x00009000] [] [[1, 2]])) = some (2, [[1, 2]], 1) := by decide
/-- V-J3, the step at position 3. -/
theorem test_gotoa :
    goesOn (step { inRun [0x80002001, 0x00018201, 0x00005000, 0x80109000] [(0, 1), (1, 4)] [[1, 2]] with pc := 3, stepcnt := 2 })
      = some (1, [[1, 2]], 3) := by decide
/-- V-DV3, V-ML2: its own position; no such label. -/
theorem test_gotoa_halts :
    ends (step (inRun [0x80505005] [(5, 1)] [[]])) = some ⟨5, ⟨0, 5, 1, 1⟩, 1, [[]], 0, 1⟩ ∧
    ends (step (inRun [0x80105002] [(1, 1)] [[]])) = some ⟨4, ⟨2, 1, 0, 0⟩, 1, [[]], 0, 1⟩ := by decide
/-- V-J2: the very next position is later. -/
theorem test_gotob : goesOn (step (inRun [0x00006001, 0x80109000] [(1, 2)] [[]])) = some (2, [[]], 1) := by decide
/-- V-DV1, its second step. -/
theorem test_gotob_earlier :
    ends (step { inRun [0x80001101, 0x00006000] [(0, 1)] [[1]] with pc := 2, stepcnt := 1 })
      = some ⟨5, ⟨1, 0, 2, 1⟩, 2, [[1]], 1, 1⟩ := by decide
/-- V-CJ9, its second step: head 1, back to position 1. -/
theorem test_jmpa_taken :
    goesOn (step { inRun [0x80002001, 0x00017100, 0x00009000] [(0, 1)] [[1, 1, 2]] with pc := 2, stepcnt := 1 })
      = some (1, [[1, 1, 2]], 2) := by decide
/-- V-CJ8: taken to its own position; with another head it is not taken. -/
theorem test_jmpa_self :
    ends (step (inRun [0x80017100, 0x00009000] [(0, 1)] [[1]])) = some ⟨5, ⟨0, 0, 1, 1⟩, 1, [[1]], 0, 1⟩ ∧
    goesOn (step (inRun [0x80017100, 0x00009000] [(0, 1)] [[2]])) = some (2, [[2]], 1) := by decide
/-- V-CJ1, V-CJ2. -/
theorem test_jmpb :
    goesOn (step (inRun [0x00018101, 0x00009000, 0x80109000] [(1, 3)] [[1, 2]])) = some (3, [[1, 2]], 1) ∧
    goesOn (step (inRun [0x00018101, 0x00009000, 0x80109000] [(1, 3)] [[2, 1]])) = some (2, [[2, 1]], 1) := by decide
/-- V-CJ4, V-CJ5, V-CJ6: the label is looked up only when the guard holds; j = 0 and j = K + 1 never hold. -/
theorem test_jmpb_guard :
    goesOn (step (inRun [0x00018107, 0x00009000] [] [[2]])) = some (2, [[2]], 1) ∧
    ends (step (inRun [0x00018107, 0x00009000] [] [[1]])) = some ⟨4, ⟨7, 1, 0, 0⟩, 1, [[1]], 0, 1⟩ ∧
    goesOn (step (inRun [0x00018007, 0x00009000] [] [[1]])) = some (2, [[1]], 1) ∧
    goesOn (step (inRun [0x00018307, 0x00009000] [] [[1]])) = some (2, [[1]], 1) := by decide
/-- V-H1: CONTINUE is not counted, so it is clean with MAX_STEPS = 0. -/
theorem test_continue :
    ends (step { inRun [0x00009000] [] [[2, 2]] with maxSteps := 0 }) = some ⟨1, ⟨0, 0, 0, 0⟩, 1, [[2, 2]], 0, 1⟩ ∧
    (next? (step { inRun [0x00009000] [] [[2, 2]] with maxSteps := 0 })).map State.status = some 0x16#8 := by decide
/-- V-OP2, V-OP3: X before Y. -/
theorem test_operand_assign :
    ends (step (inRun [0x00034004] [] [[], []])) = some ⟨9, ⟨1, 0, 3, 0⟩, 1, [[], []], 0, 1⟩ ∧
    ends (step (inRun [0x00014005] [] [[], []])) = some ⟨9, ⟨1, 1, 5, 0⟩, 1, [[], []], 0, 1⟩ := by decide
/-- V-OP4, V-OP5: the operand before the guard and before the alphabet. -/
theorem test_operand_first :
    ends (step (inRun [0x00008107] [] [[], []])) = some ⟨9, ⟨1, 0, 0, 0⟩, 1, [[], []], 0, 1⟩ ∧
    ends (step (inRun [0x00001309] [] [[], []])) = some ⟨9, ⟨1, 1, 9, 0⟩, 1, [[], []], 0, 1⟩ := by decide
/-- V-UF1: unused fields may hold anything. -/
theorem test_unused_fields :
    goesOn (step (inRun [0x000F1103, 0x000F9FFF] [] [[], [], []])) = some (2, [[], [], [1]], 1) := by decide

/-! The step around the instruction. -/

/-- V-IL1, V-IL2, V-PR3: illegal words, INFO_B the word. -/
theorem test_illegal :
    ends (step (inRun [0x00000000] [] [[]])) = some ⟨8, ⟨1, 0x00000000, 0, 0⟩, 1, [[]], 0, 1⟩ ∧
    ends (step (inRun [0x10001101] [] [[]])) = some ⟨8, ⟨1, 0x10001101, 0, 0⟩, 1, [[]], 0, 1⟩ ∧
    ends (step (inRun [0x10002000] [] [[]])) = some ⟨8, ⟨1, 0x10002000, 0, 0⟩, 1, [[]], 0, 1⟩ := by decide
/-- V-PC1: the snapshot is taken before the range check. -/
theorem test_pc_out_of_range : ends (step (inRun [] [] [[2]])) = some ⟨6, ⟨1, 0, 0, 0⟩, 1, [[2]], 0, 1⟩ := by decide
/-- V-SL1: the limit comes after the instruction's effect. -/
theorem test_step_limit :
    ends (step { inRun [0x80002001, 0x00005000] [(0, 1)] [[1, 2, 1]] with maxSteps := 0 })
      = some ⟨7, ⟨1, 0, 0, 0⟩, 2, [[2, 1]], 1, 1⟩ := by decide
/-- P6's last step (95_test_vectors.md section 4.6): the snapshot and STATUS 0x56. -/
theorem test_snapshot_and_status :
    (next? (step { inRun [0x00024001, 0x80102001, 0x00017101, 0x00028101, 0x00009000] [(1, 2)] [[], [1, 1]] with pc := 4, stepcnt := 5 })).map
      (fun t => (t.trace, t.status)) = some ([⟨4, [[], [1, 1]]⟩], 0x56#8) := by decide

/-! The start sequence. -/

/-- V-ST1, V-ST2, V-ST3. -/
theorem test_start_config :
    ends (step (startOf (launch [] 0 []))) = some ⟨11, ⟨1, 0, 0, 0⟩, 1, [], 0, 0⟩ ∧
    ends (step (startOf (launch [] 2 [[], [], []]))) = some ⟨11, ⟨2, 0, 0, 0⟩, 1, [[], []], 0, 0⟩ ∧
    ends (step (startOf { launch [] 1 [] with k := 0 })) = some ⟨11, ⟨3, 0, 0, 0⟩, 1, [[]], 0, 0⟩ := by decide
/-- V-ST11, V-ST12. -/
theorem test_start_capacity :
    ends (step (startOf { launch [] 1 [] with progLen := 65535 })) = some ⟨11, ⟨4, 0, 0, 0⟩, 1, [[]], 0, 0⟩ ∧
    ends (step (startOf { launch [] 1 [] with maxSteps := 4294967295 })) = some ⟨11, ⟨5, 0, 0, 0⟩, 1, [[]], 0, 0⟩ := by decide
/-- V-ST4, V-ST5. -/
theorem test_start_alphabet :
    ends (step (startOf (launch [0x00009000] 2 [[1, 2], [2, 3]]))) = some ⟨2, ⟨0, 2, 1, 3⟩, 1, [[], []], 0, 0⟩ ∧
    ends (step (startOf (launch [0x00009000] 2 [[1, 0], [2, 3]]))) = some ⟨2, ⟨0, 1, 1, 0⟩, 1, [[], []], 0, 0⟩ := by decide
/-- V-ST6, V-ST7: the duplicate, and the bad input before it. -/
theorem test_start_duplicate :
    ends (step (startOf (launch [0x80401101, 0x00002001, 0x80409000] 1 [[1]]))) = some ⟨3, ⟨4, 1, 3, 0⟩, 1, [[]], 0, 0⟩ ∧
    ends (step (startOf (launch [0x80401101, 0x00002001, 0x80409000] 1 [[3]]))) = some ⟨2, ⟨0, 1, 0, 3⟩, 1, [[]], 0, 0⟩ := by
  decide
/-- V-LD2 and V-ST10: the index of program P1, and the registers at the first step. -/
theorem test_start_seeds :
    (next? (step (startOf (launch [0x80028101, 0x00028202, 0x00006003, 0x80101101, 0x00002002, 0x00005000, 0x80201201,
      0x00002002, 0x00005000, 0x80309000] 3 [[2, 1]])))).map (fun t => (t.lidx, t.bank, t.phase, t.pc, t.stepcnt)) =
    some ([(0, 1), (1, 4), (2, 7), (3, 10)], [[2, 1], [], []], .run, 1, 0) := by decide
/-- An illegal word's label is indexed (V-IL4). -/
theorem test_load_reads_labels_only :
    (next? (step (startOf (launch [0x00006001, 0x8010A000] 1 [])))).map State.lidx = some [(1, 2)] := by decide

/-! Reset. -/

theorem test_reset_store_canonical : Memory.wf State.reset.store = true := by decide
/-- STATUS in RUN: PHASE 1 and OUT_VALID (10_state.md R25, R29), by hand. -/
theorem test_run_status : (inRun [0x00009000] [] [[]]).status = 0x05#8 := by decide
theorem test_reset_status : State.reset.status = 0x00#8 ∧ State.reset.readStatus 6 = some 1 := by decide

/-! Witnesses: for each obligation with hypotheses, a state and operands that meet all of them, clause by clause and at
the ends of the ranges. -/

theorem witness_DecodeOfEncode :
    Instr.wf ref32Widths (.jmpb ⟨some 255, 15, 15, 255⟩) = true ∧ Instr.wf ref32Widths (.cont ⟨none, 0, 0, 0⟩) = true ∧
    Instr.wf ⟨2, 1, 3, 0, 4, 14, 4⟩ (.assign ⟨some 7, 1, 3, 7⟩) = true := by decide

theorem witness_DecoderIsTotal :
    decode ref32Widths 0x8FF09000 = .instr (.cont ⟨some 255, 0, 0, 0⟩) ∧
    decode ref32Widths 0x00001101 = .instr (.add ⟨none, 0, 1, 1⟩) ∧
    decode ref32Widths 0x0000A000 = .illegal .unknownOpcode ∧ decode ref32Widths 0x10009000 = .illegal .reservedBits := by
  decide

theorem witness_OpcodeMapByMask :
    (0x8FF09FFF#32 &&& 0x7000F000#32 = BitVec.ofNat 32 (0x1000 * Opcode.cont.code)) ∧
    decode ref32Widths (0x8FF09FFF#32).toNat = .instr (.cont ⟨some 255, 0, 15, 255⟩) := by decide

theorem witness_PackedFieldsByBit :
    decode ref32Widths (0x80428105#32).toNat = .instr (.jmpb ⟨some 4, 2, 1, 5⟩) := by decide

/-- Y = 0 and Y = P + 1; j = K with room for one more; j = 0 and j = K + 1; a register that holds exactly CAP symbols. -/
theorem witness_AddAppends :
    let s := capped 2 (inRun [] [] [[1]])
    let full := capped 2 (inRun [] [] [[1, 2]])
    (¬ (1 ≤ 0 ∧ 0 ≤ s.p) ∧ ¬ (1 ≤ 2 ∧ 2 ≤ s.p)) ∧
    (1 ≤ 1 ∧ 1 ≤ s.p ∧ 1 ≤ 2 ∧ 2 ≤ s.k ∧ ∀ cap, s.params.cap = some cap → (s.bank.getD (1 - 1) []).length < cap) ∧
    ¬ (1 ≤ 0 ∧ 0 ≤ s.k) ∧ ¬ (1 ≤ 3 ∧ 3 ≤ s.k) ∧
    (1 ≤ full.p ∧ 2 ≤ full.k ∧ full.params.cap = some 2 ∧ 2 ≤ (full.bank.getD (1 - 1) []).length) :=
  ⟨by decide, ⟨by decide, by decide, by decide, by decide, fun cap h => by cases h; decide⟩, by decide, by decide, by decide⟩

/-- The first register, the last one, which is empty, and none. -/
theorem witness_TailRemovesFirst :
    let s := inRun [] [] [[1, 2], []]
    1 ≤ 1 ∧ 1 ≤ s.p ∧ s.bank.getD 0 [] = [1, 2] ∧ 2 ≤ s.p ∧ s.bank.getD 1 [] = [] ∧
    ¬ (1 ≤ 0 ∧ 0 ≤ s.p) ∧ ¬ (1 ≤ 3 ∧ 3 ≤ s.p) := by decide

theorem witness_ClrEmpties :
    let s := inRun [] [] [[1, 2], []]
    (1 ≤ 1 ∧ 1 ≤ s.p ∧ 1 ≤ 2 ∧ 2 ≤ s.p) ∧ ¬ (1 ≤ 0 ∧ 0 ≤ s.p) ∧ ¬ (1 ≤ 3 ∧ 3 ≤ s.p) := by decide

/-- X the first and Y the last register, X = Y, X none, and Y alone none. -/
theorem witness_AssignCopies :
    let s := inRun [] [] [[1, 2], []]
    (1 ≤ 1 ∧ 1 ≤ s.p ∧ 1 ≤ 2 ∧ 2 ≤ s.p) ∧ (1 ≤ 2 ∧ 2 ≤ s.p ∧ 1 ≤ 2 ∧ 2 ≤ s.p) ∧
    (¬ (1 ≤ 0 ∧ 0 ≤ s.p) ∧ ¬ (1 ≤ 3 ∧ 3 ≤ s.p)) ∧ (1 ≤ 2 ∧ 2 ≤ s.p ∧ ¬ (1 ≤ 3 ∧ 3 ≤ s.p)) := by decide

/-- PC 2: targets 1 (earlier), 2 (its own position), 3 (later), and a label that is absent. -/
def jumpState : State := { inRun [0x9000, 0x9000, 0x9000] [(0, 1), (1, 2), (2, 3)] [[1, 2]] with pc := 2 }

theorem witness_GotoaJumpsEarlier :
    (Table.get jumpState.lidx 0 = some 1 ∧ 1 < jumpState.pc) ∧ (Table.get jumpState.lidx 1 = some 2 ∧ jumpState.pc ≤ 2) ∧
    Table.get jumpState.lidx 3 = none := by decide

theorem witness_GotobJumpsLater :
    (Table.get jumpState.lidx 2 = some 3 ∧ jumpState.pc < 3) ∧ (Table.get jumpState.lidx 1 = some 2 ∧ 2 ≤ jumpState.pc) ∧
    Table.get jumpState.lidx 3 = none := by decide

theorem witness_JmpaJumpsIfGuard :
    (1 ≤ 1 ∧ 1 ≤ jumpState.p ∧ ¬ (1 ≤ 0 ∧ 0 ≤ jumpState.p) ∧ ¬ (1 ≤ 2 ∧ 2 ≤ jumpState.p)) ∧
    (∀ rest, jumpState.bank.getD (1 - 1) [] ≠ 2 :: rest) ∧
    jumpState.bank.getD (1 - 1) [] = 1 :: [2] ∧
    (Table.get jumpState.lidx 0 = some 1 ∧ 1 < jumpState.pc) ∧ (Table.get jumpState.lidx 1 = some 2 ∧ jumpState.pc ≤ 2) ∧
    Table.get jumpState.lidx 3 = none :=
  ⟨by decide, (by intro rest h; cases h), by decide, by decide, by decide, by decide⟩

theorem witness_JmpbJumpsIfGuard :
    (1 ≤ 1 ∧ 1 ≤ jumpState.p ∧ ¬ (1 ≤ 0 ∧ 0 ≤ jumpState.p) ∧ ¬ (1 ≤ 2 ∧ 2 ≤ jumpState.p)) ∧
    (∀ rest, (inRun [] [] [[]]).bank.getD (1 - 1) [] ≠ 1 :: rest) ∧
    jumpState.bank.getD (1 - 1) [] = 1 :: [2] ∧
    (Table.get jumpState.lidx 2 = some 3 ∧ jumpState.pc < 3) ∧ (Table.get jumpState.lidx 1 = some 2 ∧ 2 ≤ jumpState.pc) ∧
    Table.get jumpState.lidx 3 = none :=
  ⟨by decide, (by intro rest h; cases h), by decide, by decide, by decide, by decide⟩

/-- V-H1: MAX_STEPS = 0. -/
theorem witness_ContinueHaltsCleanly :
    let s := { inRun [0x00009000] [] [[2, 2]] with maxSteps := 0 }
    Running s ∧ PcInRange s ∧ s.instrAt s.pc = some (.cont ⟨none, 0, 0, 0⟩) :=
  ⟨⟨rfl, .inl rfl⟩, ⟨by decide, by decide⟩, by decide⟩

/-- Field values 0 and P + 1, and X in range beside a Y that is not. -/
theorem witness_OperandCheck :
    let s := inRun [] [] [[1], [2]]
    ¬ (1 ≤ 0 ∧ 0 ≤ s.p) ∧ ¬ (1 ≤ 3 ∧ 3 ≤ s.p) ∧ (1 ≤ 2 ∧ 2 ≤ s.p ∧ ¬ (1 ≤ 3 ∧ 3 ≤ s.p)) := by decide

/-- Each of the four answers a next state, in the case where it goes on and, for ADD and TAIL, where it halts. -/
theorem witness_SequenceFrame :
    let s := inRun [] [] [[1], [2]]
    (∃ t, exec (.add ⟨none, 0, 2, 1⟩) s = .next t ∧ t.phase = .run) ∧
    (∃ t, exec (.add ⟨none, 0, 3, 1⟩) s = .next t ∧ t.phase = .halted) ∧
    (∃ t, exec (.tail ⟨none, 0, 0, 2⟩) s = .next t ∧ t.phase = .run) ∧
    (∃ t, exec (.tail ⟨none, 0, 0, 3⟩) s = .next t ∧ t.phase = .halted) ∧
    (∃ t, exec (.clr ⟨none, 1, 0, 0⟩) s = .next t ∧ t.phase = .run) ∧
    ∃ t, exec (.assign ⟨none, 1, 0, 2⟩) s = .next t ∧ t.phase = .run :=
  ⟨⟨_, rfl, rfl⟩, ⟨_, rfl, rfl⟩, ⟨_, rfl, rfl⟩, ⟨_, rfl, rfl⟩, ⟨_, rfl, rfl⟩, ⟨_, rfl, rfl⟩⟩

theorem witness_JumpFrame :
    (∃ t, exec (.gotoa ⟨none, 0, 0, 0⟩) jumpState = .next t ∧ t.phase = .run) ∧
    (∃ t, exec (.gotob ⟨none, 0, 0, 0⟩) jumpState = .next t ∧ t.phase = .halted) ∧
    (∃ t, exec (.jmpa ⟨none, 1, 2, 0⟩) jumpState = .next t ∧ t.phase = .run) ∧
    ∃ t, exec (.jmpb ⟨none, 1, 1, 2⟩) jumpState = .next t ∧ t.phase = .run :=
  ⟨⟨_, rfl, rfl⟩, ⟨_, rfl, rfl⟩, ⟨_, rfl, rfl⟩, ⟨_, rfl, rfl⟩⟩

theorem witness_ContinueFrame : ∃ t, exec (.cont ⟨none, 0, 0, 0⟩) jumpState = .next t := ⟨_, rfl⟩

/-- V-DV3. -/
theorem witness_RaisingInstrUpdatesNothing :
    let s := inRun [0x80505005] [(5, 1)] [[]]
    ∃ u t, Running s ∧ PcInRange s ∧ s.instrAt s.pc = some (.gotoa ⟨some 5, 0, 0, 5⟩) ∧
      exec (.gotoa ⟨some 5, 0, 0, 5⟩) s.afterQuiet.emit = .next u ∧ u.phase = .halted ∧ step s = .next t :=
  ⟨_, _, ⟨rfl, .inl rfl⟩, ⟨by decide, by decide⟩, by decide, rfl, rfl, rfl⟩

/-- V-AS4: a copy, then a write of the destination and a write of the source; and X = Y. -/
theorem witness_AssignIsolates :
    let s := inRun [] [] [[1, 1], []]
    (BankSized s ∧ 1 ≤ 2 ∧ 2 ≤ s.p ∧ 1 ≤ 1 ∧ 1 ≤ s.p) ∧
    ∃ t u v, exec (.assign ⟨none, 2, 0, 1⟩) s = .next t ∧
      exec (.tail ⟨none, 0, 0, 2⟩) t = .next u ∧ destReg (.tail ⟨none, 0, 0, 2⟩) = some 2 ∧
      exec (.add ⟨none, 0, 2, 1⟩) t = .next v ∧ destReg (.add ⟨none, 0, 2, 1⟩) = some 1 ∧ (2 : Nat) ≠ 1 :=
  ⟨⟨rfl, by decide, by decide, by decide, by decide⟩, _, _, _, rfl, rfl, rfl, rfl, rfl, by decide⟩

theorem witness_ExecutedJumpsKeepDirection :
    jumpState.phase = .run ∧
    (∃ t, exec (.gotoa ⟨none, 0, 0, 0⟩) jumpState = .next t ∧ t.phase = .run) ∧
    (∃ t, exec (.gotob ⟨none, 0, 0, 2⟩) jumpState = .next t ∧ t.phase = .run) ∧
    (∃ t, exec (.jmpa ⟨none, 1, 1, 0⟩) jumpState = .next t ∧ t.phase = .run) ∧
    (∃ t, exec (.jmpa ⟨none, 1, 2, 9⟩) jumpState = .next t ∧ t.phase = .run) ∧
    ∃ t, exec (.jmpb ⟨none, 1, 1, 2⟩) jumpState = .next t ∧ t.phase = .run :=
  ⟨rfl, ⟨_, rfl, rfl⟩, ⟨_, rfl, rfl⟩, ⟨_, rfl, rfl⟩, ⟨_, rfl, rfl⟩, ⟨_, rfl, rfl⟩⟩

/-- The largest value that fits, and one that does not. -/
theorem witness_HaltEntry :
    Params.ref32.widths = some ref32Widths ∧ fitsInfo Params.ref32 4294967295 = true ∧
    fitsInfo Params.ref32 4294967296 = false ∧ fitsInfo Params.abs 4294967296 = true := by decide

/-- A run of the unbounded instance at its first instruction. -/
def absRun : State :=
  { inRun [] [] [[1]] with
    params := Params.abs, progLen := 1, store := Memory.ofProgram [.record (some .tail) ⟨none, 0, 0, 1⟩] }

theorem witness_StepRunsDecoded :
    (Running jumpState ∧ PcInRange jumpState ∧ jumpState.params.widths = some ref32Widths ∧
      Memory.read jumpState.store jumpState.pc = some (.packed 0x9000) ∧
      decode ref32Widths 0x9000 = .instr (.cont ⟨none, 0, 0, 0⟩)) ∧
    (Running absRun ∧ PcInRange absRun ∧ absRun.params.widths = none ∧
      Memory.read absRun.store absRun.pc = some (.record (some (Instr.tail ⟨none, 0, 0, 1⟩).opcode) ⟨none, 0, 0, 1⟩)) :=
  ⟨⟨⟨rfl, .inl rfl⟩, ⟨by decide, by decide⟩, rfl, by decide, by decide⟩,
    ⟨rfl, .inl rfl⟩, ⟨by decide, by decide⟩, rfl, by decide⟩

/-- With the host's list empty, and with a `quiet` at its head. -/
theorem witness_SnapshotBeforeEffects :
    (Running jumpState ∧ ∃ t, step jumpState = .next t) ∧
    let s := { jumpState with host := [.quiet, .reset] }
    Running s ∧ ∃ t, step s = .next t :=
  ⟨⟨⟨rfl, .inl rfl⟩, _, rfl⟩, ⟨rfl, .inr ⟨_, rfl⟩⟩, _, rfl⟩

/-- PC 0 and PC = PROG_LEN + 1. -/
theorem witness_PcOutOfRangeHalts :
    (let s := { jumpState with pc := 0 }; Running s ∧ s.pc < 1) ∧
    let s := { jumpState with pc := 4 }; Running s ∧ s.progLen < s.pc :=
  ⟨⟨⟨rfl, .inl rfl⟩, by decide⟩, ⟨rfl, .inl rfl⟩, by decide⟩

/-- RES not 0; OPCODE 0; OPCODE 10 in a word that declares a label, at PC of a run. -/
theorem witness_IllegalWordHalts :
    bitField 0x10009000 ref32Widths.resLo ref32Widths.resW ≠ 0 ∧
    ¬ (1 ≤ bitField 0x00000000 ref32Widths.opLo opcW ∧ bitField 0x00000000 ref32Widths.opLo opcW ≤ 9) ∧
    ¬ (1 ≤ bitField 0x8010A000 ref32Widths.opLo opcW ∧ bitField 0x8010A000 ref32Widths.opLo opcW ≤ 9) ∧
    let s := inRun [0x8010A000] [(1, 1)] [[]]
    s.params.widths = some ref32Widths ∧ Running s ∧ PcInRange s ∧ Memory.read s.store s.pc = some (.packed 0x8010A000) :=
  ⟨by decide, by decide, by decide, rfl, ⟨rfl, .inl rfl⟩, ⟨by decide, by decide⟩, by decide⟩

/-- The last step the limit allows, the first it does not, and a step that ends the run. -/
theorem witness_StepCountAndLimit :
    let s := fun (steps word : Nat) => { inRun [word] [] [[1]] with maxSteps := 5, stepcnt := steps }
    let tail := Instr.tail ⟨none, 0, 0, 1⟩
    let cont := Instr.cont ⟨none, 0, 0, 0⟩
    (Running (s 4 0x2001) ∧ PcInRange (s 4 0x2001) ∧ (s 4 0x2001).instrAt 1 = some tail ∧
      ∃ u, exec tail (s 4 0x2001).afterQuiet.emit = .next u ∧ u.phase = .run ∧ 4 + 1 ≤ (s 4 0x2001).maxSteps) ∧
    (Running (s 5 0x2001) ∧ PcInRange (s 5 0x2001) ∧ (s 5 0x2001).instrAt 1 = some tail ∧
      ∃ u, exec tail (s 5 0x2001).afterQuiet.emit = .next u ∧ u.phase = .run ∧ (s 5 0x2001).maxSteps < 5 + 1) ∧
    (Running (s 5 0x9000) ∧ PcInRange (s 5 0x9000) ∧ (s 5 0x9000).instrAt 1 = some cont ∧
      ∃ u, exec cont (s 5 0x9000).afterQuiet.emit = .next u ∧ u.phase = .halted) :=
  ⟨⟨⟨rfl, .inl rfl⟩, ⟨by decide, by decide⟩, by decide, _, rfl, rfl, by decide⟩,
    ⟨⟨rfl, .inl rfl⟩, ⟨by decide, by decide⟩, by decide, _, rfl, rfl, by decide⟩,
    ⟨rfl, .inl rfl⟩, ⟨by decide, by decide⟩, by decide, _, rfl, rfl⟩

theorem witness_IdleAndHaltedHold :
    (Quiet State.reset ∧ State.reset.phase ≠ .run) ∧
    let s := { jumpState with phase := .halted, cause := .clean, host := [.quiet] }
    Quiet s ∧ s.phase ≠ .run :=
  ⟨⟨.inl rfl, by decide⟩, .inr ⟨_, rfl⟩, by decide⟩

/-! Starts. -/

theorem startPending (l : Launch) (h : l.onPorts Params.ref32 = true) (hn : l.inputs.length = l.n) :
    StartPending (startOf l) l [] := ⟨rfl, by simp [startOf, State.afterReset], h, hn⟩

/-- Each of the six tests at the first value it fails on. -/
theorem witness_ConfigErrorFirstFailedTest :
    (let l := launch [] 0 []; StartPending (startOf l) l [] ∧ l.p < 1) ∧
    (let l := launch [] 2 [[], [], []]; StartPending (startOf l) l [] ∧ 1 ≤ l.p ∧ l.p < l.n) ∧
    (let l := { launch [] 1 [] with k := 0 }; StartPending (startOf l) l [] ∧ 1 ≤ l.p ∧ l.n ≤ l.p ∧ l.k < 1) ∧
    (let l := { launch [] 1 [] with progLen := 65535 };
      StartPending (startOf l) l [] ∧ 1 ≤ l.p ∧ l.n ≤ l.p ∧ 1 ≤ l.k ∧ (startOf l).params.widths = some ref32Widths ∧
        ref32Widths.progCap < l.progLen) ∧
    (let l := { launch [] 1 [] with maxSteps := 4294967295 };
      StartPending (startOf l) l [] ∧ 1 ≤ l.p ∧ l.n ≤ l.p ∧ 1 ≤ l.k ∧ (startOf l).params.widths = some ref32Widths ∧
        l.progLen ≤ ref32Widths.progCap ∧ 2 ^ ref32Widths.cntW - 2 < l.maxSteps) ∧
    (let l := { launch [] 2 [[1], [1, 2]] with maxSteps := 4294967294 };
      let s := capped 1 (startOf l);
      StartPending s l [] ∧ 1 ≤ l.p ∧ l.n ≤ l.p ∧ 1 ≤ l.k ∧
        (∀ W, s.params.widths = some W → l.progLen ≤ W.progCap ∧ l.maxSteps ≤ 2 ^ W.cntW - 2) ∧
        s.params.cap = some 1 ∧ l.inputs[1]? = some [1, 2] ∧ 1 < [1, 2].length ∧
        ∀ r' v', r' < 1 → l.inputs[r']? = some v' → v'.length ≤ 1) := by
  refine ⟨⟨startPending _ (by decide) rfl, by decide⟩, ⟨startPending _ (by decide) rfl, by decide⟩,
    ⟨startPending _ (by decide) rfl, by decide⟩, ⟨startPending _ (by decide) rfl, by decide⟩,
    ⟨startPending _ (by decide) rfl, by decide⟩,
    ⟨rfl, by decide, by decide, rfl⟩, by decide, by decide, by decide, ?_, rfl, rfl, by decide, ?_⟩
  · intro W hW; cases hW; decide
  · intro r' v' hr hv
    have : r' = 0 := by omega
    subst this; cases hv; decide

/-- V-ST4. -/
theorem witness_AlphabetErrorFirstOffender :
    let l := launch [0x9000] 2 [[1, 2], [2, 3]]
    StartPending (startOf l) l [] ∧ ConfigOk (startOf l).params l ∧ l.inputs[1]? = some [2, 3] ∧ [2, 3][1]? = some 3 ∧
      ¬ (1 ≤ 3 ∧ 3 ≤ l.k) ∧ (∀ r' v', r' < 1 → l.inputs[r']? = some v' → ∀ b ∈ v', 1 ≤ b ∧ b ≤ l.k) ∧
      ∀ i' b, i' < 1 → [2, 3][i']? = some b → 1 ≤ b ∧ b ≤ l.k := by
  refine ⟨startPending _ (by decide) rfl, configOk_of_none (by decide), rfl, rfl, by decide, ?_, ?_⟩
  · intro r' v' hr hv
    have : r' = 0 := by omega
    subst this; cases hv; decide
  · intro i' b hi hb
    have : i' = 0 := by omega
    subst this; cases hb; decide

/-- V-ST6: label 4 at positions 1 and 3 = PROG_LEN. -/
theorem witness_DuplicateLabelFirstCollision :
    let l := launch [0x80401101, 0x00002001, 0x80409000] 1 [[1]]
    StartPending (startOf l) l [] ∧ ConfigOk (startOf l).params l ∧ InputsOk l ∧ l.progLen ≤ l.program.length ∧
      1 ≤ 1 ∧ 1 < 3 ∧ 3 ≤ l.progLen ∧ l.labelAt (startOf l).params 1 = some 4 ∧
      l.labelAt (startOf l).params 3 = some 4 ∧ LabelsDistinct (startOf l).params l (3 - 1) := by
  refine ⟨startPending _ (by decide) rfl, configOk_of_none (by decide), (firstBadInput_none (reg := 1)).mp (by decide),
    by decide, by decide, by decide, by decide, by decide, by decide, ?_⟩
  intro lab a b h1 h2 h3 h4 ha hb
  have e : (launch [0x80401101, 0x00002001, 0x80409000] 1 [[1]]).labelAt Params.ref32 2 = none := by decide
  have ha2 : a ≠ 2 := fun h => by subst h; exact absurd (e.symm.trans ha) (by simp)
  have hb2 : b ≠ 2 := fun h => by subst h; exact absurd (e.symm.trans hb) (by simp)
  omega

/-- P5. -/
theorem witness_StartSeedsRun :
    let l := launch [0x80002001, 0x00005000] 3 [[1, 2, 1]]
    StartPending (startOf l) l [] ∧ ConfigOk (startOf l).params l ∧ InputsOk l ∧ l.progLen ≤ l.program.length ∧
      LabelsDistinct (startOf l).params l l.progLen := by
  refine ⟨startPending _ (by decide) rfl, configOk_of_none (by decide), (firstBadInput_none (reg := 1)).mp (by decide),
    by decide, ?_⟩
  intro lab a b h1 h2 h3 h4 ha hb
  have e : (launch [0x80002001, 0x00005000] 3 [[1, 2, 1]]).labelAt Params.ref32 2 = none := by decide
  have ha2 : a ≠ 2 := fun h => by subst h; exact absurd (e.symm.trans ha) (by simp)
  have hb2 : b ≠ 2 := fun h => by subst h; exact absurd (e.symm.trans hb) (by simp)
  have h2' : a ≤ 2 := h2
  have h4' : b ≤ 2 := h4
  omega

theorem witness_FailedStartState :
    let l := launch [] 0 []
    StartPending (startOf l) l [] ∧ ∃ t, step (startOf l) = .next t ∧ t.phase = .halted :=
  ⟨startPending _ (by decide) rfl, _, rfl, rfl⟩

/-- A start from IDLE and one after an earlier run. -/
theorem witness_StartForgetsEarlierRun :
    let l := launch [0x9000] 1 [[1]]
    let s := startOf l
    let s' := { jumpState with phase := .halted, cause := .clean, host := [.start l] }
    s.host = .start l :: [] ∧ s'.host = .start l :: [] ∧ s.params = s'.params ∧ s.phase ≠ .run ∧ s'.phase ≠ .run := by
  decide

theorem witness_StartIgnoredInRun :
    let s := { jumpState with host := [.start (launch [0x9000] 1 [[1]])] }
    s.host = .start (launch [0x9000] 1 [[1]]) :: [] ∧ s.phase = .run := by decide

/-- N = 2^REG_W; one sequence too many; one word too few. -/
theorem witness_OutOfContractLaunchesRefused :
    (let l := { launch [] 1 [] with n := 16 }; (startOf l).host = [.start l] ∧ (startOf l).phase ≠ .run ∧
      l.onPorts (startOf l).params = false) ∧
    (let l := { launch [] 2 [[1], [2]] with n := 1 }; (startOf l).phase ≠ .run ∧ l.onPorts (startOf l).params = true ∧
      l.inputs.length ≠ l.n) ∧
    (let l := { launch [0x2001] 1 [[1]] with progLen := 2 }; (startOf l).phase ≠ .run ∧
      l.onPorts (startOf l).params = true ∧ l.inputs.length = l.n ∧ ConfigOk (startOf l).params l ∧ InputsOk l ∧
      l.program.length < l.progLen) :=
  ⟨by decide, by decide, by decide, by decide, rfl, configOk_of_none (by decide),
    (firstBadInput_none (reg := 1)).mp (by decide), by decide⟩

theorem witness_ResetFromAnyState : { jumpState with host := [.reset] }.host = .reset :: [] := rfl

theorem witness_StatusReadPort : 0 ≤ 11 ∧ 6 ≤ 11 ∧ 11 ≤ 11 := by decide

theorem witness_ResultsAfterHalt :
    let s := { jumpState with phase := .halted, cause := .clean }; s.phase = .halted ∧ s.outValid = true := by decide

/-- V-IL4 at its start, where an illegal word declares label 1 at position 2; a start of an `ABS` block whose second
record is illegal and declares label 7; and that record at PC of a run. -/
theorem witness_LoaderReadsEveryLabel :
    (let l := launch [0x00006001, 0x8010A000] 1 []
     StartPending (startOf l) l [] ∧ (∃ t, step (startOf l) = .next t ∧ t.phase = .run) ∧
       (startOf l).params.widths = some ref32Widths ∧ l.program[2 - 1]? = some (.packed 0x8010A000) ∧
       bitField 0x8010A000 ref32Widths.lvLo 1 = 1 ∧ bitField 0x8010A000 ref32Widths.labelLo ref32Widths.lblW = 1) ∧
    (let l := { launch [] 1 [] with
       progLen := 2, program := [.record (some .cont) ⟨none, 0, 0, 0⟩, .record none ⟨some 7, 0, 0, 0⟩] }
     let s := State.afterReset Params.abs [] [.start l]
     StartPending s l [] ∧ (∃ t, step s = .next t ∧ t.phase = .run) ∧ s.params.widths = none ∧
       l.program[2 - 1]? = some (.record none ⟨some 7, 0, 0, 0⟩)) ∧
    let s := { absRun with store := Memory.ofProgram [.record none ⟨some 7, 0, 0, 0⟩] }
    s.params.widths = none ∧ Running s ∧ PcInRange s ∧ Memory.read s.store s.pc = some (.record none ⟨some 7, 0, 0, 0⟩) :=
  ⟨⟨startPending _ (by decide) rfl, ⟨_, rfl, rfl⟩, rfl, rfl, by decide, by decide⟩,
    ⟨⟨rfl, by decide, by decide, rfl⟩, ⟨_, rfl, rfl⟩, rfl, rfl⟩,
    rfl, ⟨rfl, .inl rfl⟩, ⟨by decide, by decide⟩, by decide⟩

/-! Invariants: the run of P5 at its first step. -/

def loopRun : State := inRun [0x80002001, 0x00005000] [(0, 1)] [[1, 2, 1]]

theorem loopRun_labelAt (pos : Nat) (l : Nat) (h1 : 1 ≤ pos) (h2 : pos ≤ 2) :
    labelAt Params.ref32 loopRun.store pos = some l ↔ pos = 1 ∧ l = 0 := by
  have e1 : labelAt Params.ref32 loopRun.store 1 = some 0 := by decide
  have e2 : labelAt Params.ref32 loopRun.store 2 = none := by decide
  rcases (by omega : pos = 1 ∨ pos = 2) with rfl | rfl
  · rw [e1]; simp [eq_comm]
  · rw [e2]; simp

theorem loopRun_get (l t : Nat) : Table.get loopRun.lidx l = some t ↔ l = 0 ∧ t = 1 := by
  show (if 0 = l then some 1 else none) = some t ↔ _
  by_cases h : 0 = l
  · subst h; simp [eq_comm]
  · simp [h]; omega

theorem loopRun_inv : Inv loopRun where
  paramsWf := by decide
  canonical := ⟨by decide, by decide⟩
  bankSized := rfl
  symbols := by unfold SymbolsOnly; decide
  withinCap := fun cap h => by cases h
  pcInProgram := by
    refine ⟨by decide, by decide, fun l t h => ?_⟩
    obtain ⟨-, rfl⟩ := (loopRun_get l t).mp h
    decide
  status := ⟨by decide, fun _ => rfl, fun _ => rfl, by decide⟩
  count := ⟨by decide, by decide⟩
  traceCounted := rfl
  index := by
    intro _ l pos
    rw [loopRun_get]
    constructor
    · rintro ⟨rfl, rfl⟩; decide
    · rintro ⟨h1, h2, h3⟩
      have := (loopRun_labelAt pos l h1 h2).mp h3
      exact ⟨this.2, this.1⟩
  filled := by
    intro _ pos h1 h2
    rcases (by have : pos ≤ 2 := h2; omega : pos = 1 ∨ pos = 2) with rfl | rfl
    · exact ⟨.packed 0x80002001, by decide, by decide⟩
    · exact ⟨.packed 0x00005000, by decide, by decide⟩
  fits := by intro W h; cases h; decide
  replays := by intro i a b h1 h2; simp [State.pcs, loopRun, inRun, State.afterReset] at h2

theorem loopRun_steps : ∃ t, step loopRun = .next t := ⟨_, rfl⟩

theorem loopRun_running : Running loopRun := ⟨rfl, .inl rfl⟩

theorem witness_RunConstants :
    loopRun.phase = .run ∧ (∀ rest, loopRun.host ≠ .reset :: rest) ∧ ∃ t, step loopRun = .next t :=
  ⟨rfl, (by intro rest h; cases h), loopRun_steps⟩

theorem witness_StepKeepsCanonicalStorage : StorageCanonical loopRun ∧ ∃ t, step loopRun = .next t :=
  ⟨loopRun_inv.canonical, loopRun_steps⟩

theorem witness_StepKeepsSymbols :
    (BankSized loopRun ∧ SymbolsOnly loopRun ∧ WithinCap loopRun) ∧ ∃ t, step loopRun = .next t :=
  ⟨⟨loopRun_inv.bankSized, loopRun_inv.symbols, loopRun_inv.withinCap⟩, loopRun_steps⟩

theorem witness_StepKeepsPcInProgram : PcInProgram loopRun ∧ ∃ t, step loopRun = .next t :=
  ⟨loopRun_inv.pcInProgram, loopRun_steps⟩

theorem witness_StepKeepsStatusAndCounts :
    (StatusAgrees loopRun ∧ CountInLimit loopRun ∧ TraceCounted loopRun) ∧ ∃ t, step loopRun = .next t :=
  ⟨⟨loopRun_inv.status, loopRun_inv.count, loopRun_inv.traceCounted⟩, loopRun_steps⟩

theorem witness_StepKeepsIndexExact : (IndexExact loopRun ∧ StoreFilled loopRun) ∧ ∃ t, step loopRun = .next t :=
  ⟨⟨loopRun_inv.index, loopRun_inv.filled⟩, loopRun_steps⟩

theorem witness_StepKeepsTraceReplay : TraceReplays loopRun ∧ ∃ t, step loopRun = .next t :=
  ⟨loopRun_inv.replays, loopRun_steps⟩

theorem witness_StepKeepsInvariant : Inv loopRun ∧ ∃ t, step loopRun = .next t := ⟨loopRun_inv, loopRun_steps⟩

theorem witness_OnlyLaunchesAreRefused : Inv loopRun := loopRun_inv

theorem witness_EveryRunEnds : Inv loopRun ∧ loopRun.phase = .run ∧ loopRun.host = [] := ⟨loopRun_inv, rfl, rfl⟩

theorem loopRun_programWf : ProgramWf loopRun := by
  intro pos h1 h2
  rcases (by have : pos ≤ 2 := h2; omega : pos = 1 ∨ pos = 2) with rfl | rfl
  · exact ⟨.tail ⟨some 0, 0, 0, 1⟩, by decide, rfl⟩
  · exact ⟨.gotoa ⟨none, 0, 0, 0⟩, by decide, rfl⟩

theorem witness_WellFormedProgramNeverFaultsAtDecode :
    StatusAgrees loopRun ∧ Running loopRun ∧ ProgramWf loopRun ∧ ∃ t, step loopRun = .next t :=
  ⟨loopRun_inv.status, loopRun_running, loopRun_programWf, loopRun_steps⟩

/-- V-CJ2 after its first step: the untaken JMPB behind it, PC at the CONTINUE. A backward jump stands beyond the
program, at position 3. -/
theorem witness_ForwardProgramsNeverRepeat :
    let s := { inRun [0x00018101, 0x00009000, 0x00005000] [] [[2, 1]] with
      progLen := 2, pc := 2, stepcnt := 1, trace := [⟨1, [[2, 1]]⟩] }
    (∀ pos i, 1 ≤ pos → pos ≤ s.progLen → s.instrAt pos = some i → isBackward i = false) ∧
    s.pcs.Pairwise (· < ·) ∧ ∃ t, step s = .next t := by
  refine ⟨?_, by decide, _, rfl⟩
  intro pos i h1 h2 h
  rcases (by have : pos ≤ 2 := h2; omega : pos = 1 ∨ pos = 2) with rfl | rfl
  · cases h; rfl
  · cases h; rfl

theorem witness_BoundedStepIsUnbounded :
    loopRun.params.widths = some ref32Widths ∧ Inv loopRun ∧ Running loopRun ∧ ProgramLegal loopRun ∧
    (∃ t, step loopRun = .next t) ∧ ref32Widths.symW ≤ ref32Widths.infoW :=
  ⟨rfl, loopRun_inv, loopRun_running, fun pos h1 h2 => (loopRun_programWf pos h1 h2).imp fun _ h => h.1,
    loopRun_steps, by decide⟩

end Sys2Proof.Tests
end

section
/-! PROOFS of the state family (10_state.md): the values after reset, the state a start leaves when it finds no
failure, and that nothing of an earlier run survives a start. -/

namespace Sys2Proof.Machine

/-! After reset. -/

@[simp] theorem State.readReg_afterReset (q : Params) (store : Memory) (host : List HostEvent) (i : Nat) :
    (State.afterReset q store host).readReg i = [] := by
  cases i with
  | zero => rfl
  | succ i => exact List.getD_nil

/-- Settles O43: each value is the one `State.afterReset` writes; the bank and LIDX it leaves hold nothing. -/
theorem resetValues : Obligations.ResetValues := by
  unfold Obligations.ResetValues
  refine ⟨rfl, rfl, rfl, rfl, rfl, rfl, fun i => ?_, fun l => ?_, rfl, rfl, rfl, rfl, rfl, rfl⟩
  · exact State.readReg_afterReset _ _ _ i
  · exact Table.get_nil l

/-! A start forgets: of the state before it, `latchLaunch` keeps the parameters, the host's next actions and PHASE, and
PHASE is written by both ways a start can end. -/

theorem State.latchLaunch_congr {s s' : State} (l : Launch) (hp : s.params = s'.params) (hh : s.host = s'.host) :
    s.latchLaunch l = { s'.latchLaunch l with phase := s.phase } := by
  simp only [State.latchLaunch, hp, hh]

@[simp] theorem State.raiseHalt_set_phase (s : State) (ph : Phase) (h : Halt) :
    ({ s with phase := ph } : State).raiseHalt h = s.raiseHalt h := rfl

@[simp] theorem State.loadAndSeed_set_phase (s : State) (ph : Phase) (l : Launch) :
    ({ s with phase := ph } : State).loadAndSeed l = s.loadAndSeed l := by
  simp only [State.loadAndSeed]
  cases loadLabels s.params s.store 1 s.progLen [] with
  | indexed ix => rfl
  | duplicate label first second ix => rfl

theorem State.acceptStart_congr {s s' : State} (l : Launch) (hp : s.params = s'.params) (hh : s.host = s'.host) :
    s.acceptStart l = s'.acceptStart l := by
  simp only [State.acceptStart, hp, State.latchLaunch_congr l hp hh, State.raiseHalt_set_phase,
    State.loadAndSeed_set_phase]

/-- Settles O39: both starts are accepted, and an accepted start reads only the parameters and the host's actions. -/
theorem startForgetsEarlierRun : Obligations.StartForgetsEarlierRun := by
  unfold Obligations.StartForgetsEarlierRun
  intro s s' l rest hs hs' hparams hrun hrun'
  rw [step_of_start hs hrun, step_of_start hs' hrun']
  exact State.acceptStart_congr l hparams rfl

/-! A start that finds no failure. -/

theorem State.acceptStart_of_checks {s : State} {l : Launch} (hports : l.onPorts s.params = true)
    (hcount : l.inputs.length = l.n) (hconfig : ConfigOk s.params l) (hinputs : InputsOk l)
    (hheld : l.progLen ≤ l.program.length) :
    s.acceptStart l = .next ((s.latchLaunch l).loadAndSeed l) := by
  have hbad : firstBadInput l.k 1 l.inputs = none := firstBadInput_none.mpr hinputs
  simp [State.acceptStart, hports, hcount, configFailure_of_ok hconfig, hbad, hheld]

/-- The index built up to `pos` lists exactly the labels declared in `base` .. `pos - 1`. -/
theorem IndexUpTo.get_iff {q : Params} {m : Memory} {base pos : Nat} {ix : Lidx} (h : IndexUpTo q m base pos ix)
    (lab t : Nat) : Table.get ix lab = some t ↔ base ≤ t ∧ t < pos ∧ labelAt q m t = some lab :=
  ⟨h.sound lab t, fun ⟨hb, ht, hlab⟩ => h.complete lab t hb ht hlab⟩

/-- On distinct labels the Loader meets no collision: the label at `second` would also be listed at an earlier
position. -/
theorem loadLabels_of_distinct {q : Params} {l : Launch} (hd : LabelsDistinct q l l.progLen) :
    ∃ ix, loadLabels q (Memory.ofProgram l.program) 1 l.progLen [] = .indexed ix ∧
      IndexUpTo q (Memory.ofProgram l.program) 1 (1 + l.progLen) ix := by
  rcases loadLabels_cases l.progLen (IndexUpTo.empty q (Memory.ofProgram l.program)) (Nat.le_refl 1)
      List.Pairwise.nil with ⟨ix, hload, hix, -⟩ | ⟨lab, first, second, ix, -, -, hlo, hhi, hix, hsecond, hget⟩
  · exact ⟨ix, hload, hix⟩
  · obtain ⟨hbase, hlt, hfirst⟩ := hix.sound lab first hget
    have heq : first = second := hd lab first second hbase (by omega) hlo (by omega) hfirst hsecond
    omega

theorem State.loadAndSeed_of_indexed {s : State} {l : Launch} {ix : Lidx}
    (h : loadLabels s.params s.store 1 s.progLen [] = .indexed ix) :
    s.loadAndSeed l = ({ s with lidx := ix } : State).seed l := by
  simp only [State.loadAndSeed, h]

/-- Settles O37: the checks pass, the Loader ends with the exact index, and seeding writes the rest. -/
theorem startSeedsRun : Obligations.StartSeedsRun := by
  unfold Obligations.StartSeedsRun
  rintro s l rest ⟨hhost, hphase, hports, hcount⟩ hconfig hinputs hheld hdistinct
  obtain ⟨ix, hload, hix⟩ := loadLabels_of_distinct hdistinct
  refine ⟨ix, ?_, fun lab pos => ?_⟩
  · calc step s = (s.withHost rest).acceptStart l := step_of_start hhost hphase
      _ = .next (((s.withHost rest).latchLaunch l).loadAndSeed l) :=
        State.acceptStart_of_checks hports hcount hconfig hinputs hheld
      _ = .next (({ (s.withHost rest).latchLaunch l with lidx := ix } : State).seed l) :=
        congrArg _ (State.loadAndSeed_of_indexed hload)
      _ = _ := by simp only [State.seed, State.latchLaunch, State.withHost, seedBank, Info.zero, hcount]
  · rw [hix.get_iff, Nat.add_comm, Nat.lt_succ_iff, Launch.labelAt]

end Sys2Proof.Machine
end

section
/-! PROOFS of the encoding family (30_encoding.md): when a word decodes to an instruction and when it is illegal, the
match against the mask, the fields of a word by bit position, the fields an opcode does not use, and the step that
fetches an illegal word. -/

namespace Sys2Proof

/-! The decoder, both ways. -/

/-- A word decodes to `i` exactly when RES is 0, OPCODE is the number of `i`'s operation, and `i`'s fields are the
word's (30_encoding.md R69, R71, R72). -/
theorem decode_eq_instr_iff {W : Widths} {w : Nat} {i : Instr} :
    decode W w = .instr i ↔
      bitField w W.resLo W.resW = 0 ∧ bitField w W.opLo opcW = i.opcode.code ∧ i.fields = wordFields W w := by
  constructor
  · intro h
    unfold decode at h
    split at h
    · cases h
    · rename_i hres
      split at h
      · cases h
      · rename_i op hop
        cases h
        exact ⟨not_not.mp hres, by simpa using (Opcode.code_of_ofCode hop).symm, Instr.fields_make op _⟩
  · rintro ⟨hres, hop, hfields⟩
    simp [decode, hres, hop, ← hfields]

/-- A word is illegal exactly when RES is not 0 or OPCODE is outside 1..9 (30_encoding.md R71, R72). -/
theorem decode_illegal_iff (W : Widths) (w : Nat) :
    (∃ why, decode W w = .illegal why) ↔
      bitField w W.resLo W.resW ≠ 0 ∨ ¬ (1 ≤ bitField w W.opLo opcW ∧ bitField w W.opLo opcW ≤ 9) := by
  rw [← Opcode.ofCode_isSome]
  unfold decode
  by_cases hres : bitField w W.resLo W.resW = 0
  · cases hop : Opcode.ofCode (bitField w W.opLo opcW) with
    | none => simp [hres]
    | some op => simp [hres]
  · simp [hres]

/-! Match against mask. -/

/-- A mask of `n` ones from bit `lo` on leaves the field there, in its place. -/
theorem and_fieldMask (w lo n : Nat) : w &&& (2 ^ n - 1) <<< lo = bitField w lo n <<< lo := by
  refine Nat.eq_of_testBit_eq fun k => ?_
  simp only [bitField, Nat.testBit_and, Nat.testBit_shiftLeft, Nat.testBit_two_pow_sub_one, Nat.testBit_mod_two_pow,
    Nat.testBit_div_two_pow]
  by_cases h : lo ≤ k
  · simp [h, Nat.sub_add_cancel h, Bool.and_comm]
  · simp [h]

/-- The mask of 30_encoding.md R64 leaves RES and OPCODE, each in its place. -/
theorem and_opcodeMask (w : Nat) :
    w &&& 0x7000F000 = bitField w 28 3 * 2 ^ 28 + bitField w 12 4 * 2 ^ 12 := by
  have hop : bitField w 12 4 < 2 ^ 4 := bitField_lt w 12 4
  have hlow : bitField w 12 4 <<< 12 < 2 ^ 28 := by rw [Nat.shiftLeft_eq]; omega
  calc w &&& 0x7000F000 = w &&& ((2 ^ 3 - 1) <<< 28 ||| (2 ^ 4 - 1) <<< 12) := rfl
    _ = bitField w 28 3 <<< 28 ||| bitField w 12 4 <<< 12 := by
      rw [Nat.and_or_distrib_left, and_fieldMask, and_fieldMask]
    _ = bitField w 28 3 <<< 28 + bitField w 12 4 <<< 12 := (Nat.shiftLeft_add_eq_or_of_lt hlow _).symm
    _ = bitField w 28 3 * 2 ^ 28 + bitField w 12 4 * 2 ^ 12 := by rw [Nat.shiftLeft_eq, Nat.shiftLeft_eq]

/-- The masked word is an operation's match value exactly when RES is 0 and OPCODE is the operation's number. -/
theorem and_opcodeMask_eq_iff (w : BitVec 32) (op : Opcode) :
    w &&& 0x7000F000#32 = BitVec.ofNat 32 (0x1000 * op.code) ↔
      bitField w.toNat 28 3 = 0 ∧ bitField w.toNat 12 4 = op.code := by
  have hcode : op.code < 2 ^ 4 := op.code_lt
  have hop : bitField w.toNat 12 4 < 2 ^ 4 := bitField_lt w.toNat 12 4
  have hmatch : 0x1000 * op.code % 2 ^ 32 = 0x1000 * op.code := Nat.mod_eq_of_lt (by omega)
  rw [← BitVec.toNat_inj, BitVec.toNat_and, BitVec.toNat_ofNat, BitVec.toNat_ofNat, hmatch]
  rw [show 0x7000F000 % 2 ^ 32 = 0x7000F000 from rfl, and_opcodeMask]
  omega

/-- Settles O4: the mask keeps RES and OPCODE, and RES = 0 with OPCODE the operation's number is what the decoder asks
for. -/
theorem opcodeMapByMask : Obligations.OpcodeMapByMask := by
  unfold Obligations.OpcodeMapByMask
  refine ⟨⟨rfl, rfl, rfl, rfl, rfl, rfl, rfl, rfl, rfl⟩, fun w op => ?_⟩
  rw [and_opcodeMask_eq_iff]
  constructor
  · rintro ⟨hres, hop⟩
    refine ⟨Instr.make op (wordFields ref32Widths w.toNat), decode_eq_instr_iff.mpr ⟨hres, ?_, ?_⟩, ?_⟩
    · rw [Instr.opcode_make]; exact hop
    · exact Instr.fields_make op _
    · exact Instr.opcode_make op _
  · rintro ⟨i, hdecode, rfl⟩
    obtain ⟨hres, hop, -⟩ := decode_eq_instr_iff.mp hdecode
    exact ⟨hres, hop⟩

/-! The fields of a `REF32` word by bit position. -/

/-- A one-bit slice is 1 exactly when the field there is. -/
theorem extractLsb_bit_eq_one_iff (w : BitVec 32) (lo : Nat) :
    w.extractLsb lo lo = BitVec.ofNat (lo - lo + 1) 1 ↔ bitField w.toNat lo 1 = 1 := by
  rw [← BitVec.toNat_inj, toNat_extractLsb]
  simp

/-- LABEL when LV is 1, by bit position (30_encoding.md R69). -/
theorem wordLabel_ref32 (w : BitVec 32) :
    wordLabel ref32Widths w.toNat =
      if w.extractLsb 31 31 = 1#1 then some (w.extractLsb 27 20).toNat else none := by
  rw [toNat_extractLsb]
  exact if_congr (extractLsb_bit_eq_one_iff w 31).symm rfl rfl

/-- Settles O5: under the widths of `REF32` each field begins at the slice's low bit and has its length. -/
theorem packedFieldsByBit : Obligations.PackedFieldsByBit := by
  unfold Obligations.PackedFieldsByBit
  intro w
  rw [← wordLabel_ref32]
  simp only [toNat_extractLsb]
  refine ⟨rfl, rfl, rfl, fun i hdecode => ?_⟩
  obtain ⟨-, hop, hfields⟩ := decode_eq_instr_iff.mp hdecode
  exact ⟨hfields, hop.symm⟩

end Sys2Proof

namespace Sys2Proof.Machine

/-! The fields an opcode does not use. -/

theorem firstBadField_congr (p : Nat) {f g : Fields} {qs : List RegField} (h : ∀ q ∈ qs, q.value f = q.value g) :
    firstBadField p f qs = firstBadField p g qs := by
  induction qs with
  | nil => rfl
  | cons q rest ih =>
    obtain ⟨hq, hrest⟩ := List.forall_mem_cons.mp h
    simp only [firstBadField, hq, ih hrest]

/-- The field found bad is one of those looked at. -/
theorem mem_of_firstBadField {p : Nat} {f : Fields} {qs : List RegField} {q : RegField}
    (h : firstBadField p f qs = some q) : q ∈ qs := by
  induction qs with
  | nil => cases h
  | cons r rest ih =>
    simp only [firstBadField] at h
    split at h
    · exact List.mem_cons_of_mem _ (ih h)
    · cases h; exact List.mem_cons_self

/-- The operand check reads the register fields the opcode uses and no other (40_startup_and_step_fsm.md R94). -/
theorem State.checkRegs_congr (s done : State) {op : Opcode} {f g : Fields}
    (h : ∀ q ∈ regFields op, q.value f = q.value g) : s.checkRegs op f done = s.checkRegs op g done := by
  have hbad := firstBadField_congr s.p h
  rcases s.checkRegs_cases op f done with ⟨hnone, hf⟩ | ⟨q, hq, hf⟩
  · rw [hf, State.checkRegs_ok (hbad ▸ hnone)]
  · rw [hf, State.checkRegs_bad (hbad ▸ hq), h q (mem_of_firstBadField hq)]

theorem canonical_statement (i : Instr) : Laws.Canonical.Statement i := by
  cases i with
  | add f => exact Laws.Canonical.add f
  | tail f => exact Laws.Canonical.tail f
  | clr f => exact Laws.Canonical.clr f
  | assign f => exact Laws.Canonical.assign f
  | gotoa f => exact Laws.Canonical.gotoa f
  | gotob f => exact Laws.Canonical.gotob f
  | jmpa f => exact Laws.Canonical.jmpa f
  | jmpb f => exact Laws.Canonical.jmpb f
  | cont f => exact Laws.Canonical.cont f

/-- The unused fields have no part in an instruction's meaning: with 0 written in them it does the same
(30_encoding.md R70). Beside the operand check, only fields the opcode uses are read. -/
theorem exec_canonical (i : Instr) (s : State) : exec i.canonical s = exec i s := by
  obtain ⟨-, -, hregs, -⟩ := canonical_statement i
  cases i with
  | add f => exact congrArg Host.Outcome.next (s.checkRegs_congr _ hregs)
  | tail f => exact congrArg Host.Outcome.next (s.checkRegs_congr _ hregs)
  | clr f => exact congrArg Host.Outcome.next (s.checkRegs_congr _ hregs)
  | assign f => exact congrArg Host.Outcome.next (s.checkRegs_congr _ hregs)
  | gotoa f => exact congrArg Host.Outcome.next (s.checkRegs_congr _ hregs)
  | gotob f => exact congrArg Host.Outcome.next (s.checkRegs_congr _ hregs)
  | jmpa f => exact congrArg Host.Outcome.next (s.checkRegs_congr _ hregs)
  | jmpb f => exact congrArg Host.Outcome.next (s.checkRegs_congr _ hregs)
  | cont f => exact congrArg Host.Outcome.next (s.checkRegs_congr _ hregs)

theorem exec_eq_of_canonical {i i' : Instr} (s : State) (h : i.canonical = i'.canonical) : exec i s = exec i' s := by
  rw [← exec_canonical i, h, exec_canonical]

/-- Settles O16: the two instructions of each pair have one canonical form. -/
theorem unusedFieldsIgnored : Obligations.UnusedFieldsIgnored := by
  unfold Obligations.UnusedFieldsIgnored
  intro s l x x' j j' y y'
  refine ⟨?_, ?_, ?_, ?_, ?_, ?_, ?_⟩ <;> exact exec_eq_of_canonical s rfl

/-! The step that fetches an illegal word. -/

theorem PcInRange.pcOutside_eq_false {s : State} (h : PcInRange s) : s.pcOutside = false := by
  obtain ⟨hlo, hhi⟩ := h
  rw [← Bool.not_eq_true, State.pcOutside_iff]
  omega

theorem State.fetch_of_packed {s : State} {W : Widths} {w : Nat} (hW : s.params.widths = some W)
    (hw : Memory.read s.store s.pc = some (.packed w)) : s.fetch = some ⟨w, decode W w⟩ := by
  simp only [State.fetch, hW, hw]

/-- With PC in range and no instruction there, the step is the snapshot and the halt: before any effect
(30_encoding.md R71, 60_exceptions.md R157). -/
theorem step_of_illegal {s : State} {word : Nat} {why : Illegal} (hr : Running s) (hp : PcInRange s)
    (hf : s.fetch = some ⟨word, .illegal why⟩) :
    step s = .next (s.afterQuiet.emit.raiseHalt (.illegalInstruction s.pc word)) := by
  have hout : s.afterQuiet.pcOutside = false := hp.pcOutside_eq_false
  have hfetch : s.afterQuiet.fetch = some ⟨word, .illegal why⟩ := hf
  rw [step_of_running hr]
  simp [State.protocolStep, hout, hfetch]

/-- Settles O31: such a word is illegal to the decoder, and fetch finds it at PC. -/
theorem illegalWordHalts : Obligations.IllegalWordHalts := by
  unfold Obligations.IllegalWordHalts
  intro s W w hW hbad hr hp hw
  obtain ⟨why, hwhy⟩ := (decode_illegal_iff W w).mpr hbad
  exact step_of_illegal hr hp (hwhy ▸ State.fetch_of_packed hW hw)

end Sys2Proof.Machine
end

section
/-! PROOFS of the start-up and step family (40_startup_and_step_fsm.md): the snapshot, the range check and the step
counter of a step; the first failed test of the configuration check and the first offender of the input validation. -/

namespace Sys2Proof.Machine

/-! The step. -/

/-- Settles O29: each way a step can end appends that one snapshot. -/
theorem snapshotBeforeEffects : Obligations.SnapshotBeforeEffects := by
  unfold Obligations.SnapshotBeforeEffects
  intro s t hr h
  rw [step_of_running hr] at h
  obtain ⟨-, -, -, -, -, -, -, -, -, htrace, -⟩ := (State.protocolStep_stepped h).untouched
  exact htrace

theorem State.protocolStep_of_pcOutside {s : State} (h : s.pcOutside = true) :
    s.protocolStep = .next (s.emit.raiseHalt (.pcOutOfRange s.pc s.progLen)) := by
  simp [State.protocolStep, h]

/-- Settles O30: the range test comes before the fetch, and nothing follows its halt. -/
theorem pcOutOfRangeHalts : Obligations.PcOutOfRangeHalts := by
  unfold Obligations.PcOutOfRangeHalts
  intro s hr hpc
  have hout : s.afterQuiet.pcOutside = true := s.afterQuiet.pcOutside_iff.mpr hpc
  rw [step_of_running hr, State.protocolStep_of_pcOutside hout]
  rfl

/-- Item 5 of a run within the limit. -/
theorem State.countStep_of_le {s : State} (hrun : s.phase = .run) (h : s.stepcnt + 1 ≤ s.maxSteps) :
    s.countStep = { s with stepcnt := s.stepcnt + 1 } := by
  rcases State.countStep_of_run hrun with ⟨-, hcount⟩ | ⟨hover, -⟩
  · exact hcount
  · omega

/-- Item 5 of a run that passes the limit. -/
theorem State.countStep_of_lt {s : State} (hrun : s.phase = .run) (h : s.maxSteps < s.stepcnt + 1) :
    s.countStep = ({ s with stepcnt := s.stepcnt + 1 } : State).raiseHalt
      (.stepLimitExceeded (s.stepcnt + 1) s.maxSteps) := by
  rcases State.countStep_of_run hrun with ⟨hle, -⟩ | ⟨-, hcount⟩
  · omega
  · exact hcount

/-- Settles O32: the step is exec and then item 5, and exec leaves STEPCNT and MAX_STEPS as they were. -/
theorem stepCountAndLimit : Obligations.StepCountAndLimit := by
  unfold Obligations.StepCountAndLimit
  intro s u i hr hp hi hu
  have huntouched := (effect_of_exec hu).untouched
  have hcnt : u.stepcnt = s.stepcnt := huntouched.stepcnt
  have hmax : u.maxSteps = s.maxSteps := huntouched.maxSteps
  rw [step_of_instrAt hr hp hi hu, ← hcnt, ← hmax]
  refine ⟨fun hrun hle => ?_, fun hrun hlt => ?_, fun hhalted => ?_⟩
  · rw [State.countStep_of_le hrun hle]
  · rw [State.countStep_of_lt hrun hlt]
  · rw [State.countStep_of_halted hhalted]

/-! The first offender. Each scan of the start sequence passes over the entries that are in order, so its answer is
decided where the first offender stands. -/

/-- The entries before an index, where all of them have a property, as a list of their own. -/
theorem exists_append_of_getElem? {α : Type} {P : α → Prop} {l : List α} {i : Nat} {a : α} (ha : l[i]? = some a)
    (h : ∀ j b, j < i → l[j]? = some b → P b) : ∃ pre post, l = pre ++ a :: post ∧ pre.length = i ∧ ∀ b ∈ pre, P b := by
  obtain ⟨hi, rfl⟩ := List.getElem?_eq_some_iff.mp ha
  refine ⟨l.take i, l.drop (i + 1), ?_, by simp [hi.le], fun b hb => ?_⟩
  · rw [← List.drop_eq_getElem_cons hi, List.take_append_drop]
  · obtain ⟨j, hj, hb⟩ := List.mem_take_iff_getElem.mp hb
    exact h j b (by omega) (by rw [← hb, List.getElem?_eq_getElem])

theorem firstTooLong_append {q : Params} {cap : Nat} (hcap : q.cap = some cap) {pre : List Seq}
    (h : ∀ v ∈ pre, v.length ≤ cap) (reg : Nat) (vs : List Seq) :
    firstTooLong q reg (pre ++ vs) = firstTooLong q (reg + pre.length) vs := by
  induction pre generalizing reg with
  | nil => rfl
  | cons v rest ih =>
    obtain ⟨hv, hrest⟩ := List.forall_mem_cons.mp h
    simp [firstTooLong, hcap, Nat.not_lt.mpr hv, ih hrest, Nat.add_comm, Nat.add_left_comm]

theorem firstTooLong_eq_some {q : Params} {cap r : Nat} {vs : List Seq} {v : Seq} (hcap : q.cap = some cap)
    (hv : vs[r]? = some v) (hlong : cap < v.length) (hbefore : ∀ r' v', r' < r → vs[r']? = some v' → v'.length ≤ cap)
    (reg : Nat) : firstTooLong q reg vs = some (reg + r) := by
  obtain ⟨pre, post, rfl, rfl, hpre⟩ := exists_append_of_getElem? hv hbefore
  rw [firstTooLong_append hcap hpre]
  simp [firstTooLong, hcap, hlong]

theorem firstBadSymbol_append {k : Nat} {pre : Seq} (h : ∀ a ∈ pre, 1 ≤ a ∧ a ≤ k) (index : Nat) (v : Seq) :
    firstBadSymbol k index (pre ++ v) = firstBadSymbol k (index + pre.length) v := by
  induction pre generalizing index with
  | nil => rfl
  | cons a rest ih =>
    obtain ⟨ha, hrest⟩ := List.forall_mem_cons.mp h
    simp [firstBadSymbol, (isSymbol_iff k a).mpr ha, ih hrest, Nat.add_comm, Nat.add_left_comm]

theorem firstBadSymbol_eq_some {k i a : Nat} {v : Seq} (ha : v[i]? = some a) (hbad : ¬ (1 ≤ a ∧ a ≤ k))
    (hbefore : ∀ i' b, i' < i → v[i']? = some b → 1 ≤ b ∧ b ≤ k) (index : Nat) :
    firstBadSymbol k index v = some (index + i, a) := by
  obtain ⟨pre, post, rfl, rfl, hpre⟩ := exists_append_of_getElem? ha hbefore
  rw [firstBadSymbol_append hpre]
  simp [firstBadSymbol, mt (isSymbol_iff k a).mp hbad]

theorem firstBadInput_append {k : Nat} {pre : List Seq} (h : ∀ v ∈ pre, ∀ a ∈ v, 1 ≤ a ∧ a ≤ k) (reg : Nat)
    (vs : List Seq) : firstBadInput k reg (pre ++ vs) = firstBadInput k (reg + pre.length) vs := by
  induction pre generalizing reg with
  | nil => rfl
  | cons v rest ih =>
    obtain ⟨hv, hrest⟩ := List.forall_mem_cons.mp h
    simp [firstBadInput, firstBadSymbol_none.mpr hv, ih hrest, Nat.add_comm, Nat.add_left_comm]

theorem firstBadInput_eq_some {k r i a : Nat} {vs : List Seq} {v : Seq} (hv : vs[r]? = some v) (ha : v[i]? = some a)
    (hbad : ¬ (1 ≤ a ∧ a ≤ k)) (hregs : ∀ r' v', r' < r → vs[r']? = some v' → ∀ b ∈ v', 1 ≤ b ∧ b ≤ k)
    (helems : ∀ i' b, i' < i → v[i']? = some b → 1 ≤ b ∧ b ≤ k) (reg : Nat) :
    firstBadInput k reg vs = some (reg + r, i, a) := by
  obtain ⟨pre, post, rfl, rfl, hpre⟩ := exists_append_of_getElem? hv hregs
  rw [firstBadInput_append hpre]
  simp [firstBadInput, firstBadSymbol_eq_some ha hbad helems]

/-! The configuration check. -/

theorem overProgCap_iff (q : Params) (progLen : Nat) :
    overProgCap q progLen = true ↔ ∃ W, q.widths = some W ∧ W.progCap < progLen := by
  unfold overProgCap
  cases q.widths <;> simp

theorem overStepCap_iff (q : Params) (maxSteps : Nat) :
    overStepCap q maxSteps = true ↔ ∃ W, q.widths = some W ∧ 2 ^ W.cntW - 2 < maxSteps := by
  unfold overStepCap
  cases q.widths <;> simp

theorem overProgCap_eq_false_iff (q : Params) (progLen : Nat) :
    overProgCap q progLen = false ↔ ∀ W, q.widths = some W → progLen ≤ W.progCap := by
  simp [← Bool.not_eq_true, overProgCap_iff]

theorem overStepCap_eq_false_iff (q : Params) (maxSteps : Nat) :
    overStepCap q maxSteps = false ↔ ∀ W, q.widths = some W → maxSteps ≤ 2 ^ W.cntW - 2 := by
  simp [← Bool.not_eq_true, overStepCap_iff]

/-- A start whose configuration check fails ends there, before anything else is looked at. -/
theorem step_of_configFailure {s : State} {l : Launch} {rest : List HostEvent} {code reg : Nat}
    (hs : StartPending s l rest) (h : configFailure s.params l = some (code, reg)) :
    step s = .next (((s.withHost rest).latchLaunch l).raiseHalt (.config code reg)) := by
  obtain ⟨hhost, hphase, hports, hcount⟩ := hs
  rw [step_of_start hhost hphase]
  simp [State.acceptStart, hports, hcount, h]

/-- Settles O34: with the tests before it passed, each failed test is the one `configFailure` reports. -/
theorem configErrorFirstFailedTest : Obligations.ConfigErrorFirstFailedTest := by
  unfold Obligations.ConfigErrorFirstFailedTest
  intro s l rest hs
  refine ⟨fun hp => step_of_configFailure hs ?_, fun hp hn => step_of_configFailure hs ?_,
    fun hp hn hk => step_of_configFailure hs ?_, fun hp hn hk W hW hprog => step_of_configFailure hs ?_,
    fun hp hn hk W hW hprog hsteps => step_of_configFailure hs ?_,
    fun hp hn hk hwidths cap r v hcap hv hlong hbefore => step_of_configFailure hs ?_⟩
  · simp [configFailure, hp]
  · simp [configFailure, hp.not_gt, hn]
  · simp [configFailure, hp.not_gt, hn.not_gt, hk]
  · have h4 : overProgCap s.params l.progLen = true := (overProgCap_iff _ _).mpr ⟨W, hW, hprog⟩
    simp [configFailure, hp.not_gt, hn.not_gt, hk.not_gt, h4]
  · have h4 : overProgCap s.params l.progLen = false :=
      (overProgCap_eq_false_iff _ _).mpr fun W' hW' => by cases hW.symm.trans hW'; exact hprog
    have h5 : overStepCap s.params l.maxSteps = true := (overStepCap_iff _ _).mpr ⟨W, hW, hsteps⟩
    simp [configFailure, hp.not_gt, hn.not_gt, hk.not_gt, h4, h5]
  · have h4 : overProgCap s.params l.progLen = false :=
      (overProgCap_eq_false_iff _ _).mpr fun W hW => (hwidths W hW).1
    have h5 : overStepCap s.params l.maxSteps = false :=
      (overStepCap_eq_false_iff _ _).mpr fun W hW => (hwidths W hW).2
    have h6 : firstTooLong s.params 1 l.inputs = some (r + 1) := by
      rw [firstTooLong_eq_some hcap hv hlong hbefore, Nat.add_comm]
    simp [configFailure, hp.not_gt, hn.not_gt, hk.not_gt, h4, h5, h6]

/-- Settles O35: the configuration check passes, so the start ends at the input validation, before the Loader. -/
theorem alphabetErrorFirstOffender : Obligations.AlphabetErrorFirstOffender := by
  unfold Obligations.AlphabetErrorFirstOffender
  rintro s l rest r i a v ⟨hhost, hphase, hports, hcount⟩ hconfig hv ha hbad hregs helems
  have hfirst : firstBadInput l.k 1 l.inputs = some (r + 1, i, a) := by
    rw [firstBadInput_eq_some hv ha hbad hregs helems, Nat.add_comm]
  rw [step_of_start hhost hphase]
  simp [State.acceptStart, hports, hcount, configFailure_of_ok hconfig, hfirst]

end Sys2Proof.Machine
end

section
/-! PROOFS of the sequence family (41_sequence_ops.md): what ADD, TAIL, CLR and ASSIGN answer, in each case of the
operand check and of ADD's own two checks. -/

namespace Sys2Proof.Machine

/-! The dispatcher's four arms. -/

theorem exec_add (f : Fields) (s : State) :
    exec (.add f) s = .next (s.checkRegs .add f (s.appendSymbol f.y f.j)) := rfl

theorem exec_tail (f : Fields) (s : State) :
    exec (.tail f) s = .next (s.checkRegs .tail f (s.writeReg f.y (seqPop (s.readReg f.y))).nextPc) := rfl

theorem exec_clr (f : Fields) (s : State) :
    exec (.clr f) s = .next (s.checkRegs .clr f (s.writeReg f.x seqClear).nextPc) := rfl

theorem exec_assign (f : Fields) (s : State) :
    exec (.assign f) s = .next (s.checkRegs .assign f (s.writeReg f.x (s.readReg f.y)).nextPc) := rfl

/-! The operand check, one field at a time. -/

/-- A field that names a register is passed over (40_startup_and_step_fsm.md R94). -/
theorem firstBadField_cons_of_names {p : Nat} {f : Fields} {q : RegField} (rest : List RegField)
    (h : 1 ≤ q.value f ∧ q.value f ≤ p) : firstBadField p f (q :: rest) = firstBadField p f rest :=
  if_pos ((namesReg_iff _ _).mpr h)

/-- A field that names no register is the one found, whatever the fields after it hold. -/
theorem firstBadField_cons_of_not {p : Nat} {f : Fields} {q : RegField} (rest : List RegField)
    (h : ¬ (1 ≤ q.value f ∧ q.value f ≤ p)) : firstBadField p f (q :: rest) = some q :=
  if_neg (mt (namesReg_iff _ _).mp h)

/-- An operation whose only register operand names a register is let through. -/
theorem State.checkRegs_single_of_names {s : State} {op : Opcode} {f : Fields} {q : RegField} (done : State)
    (hop : regFields op = [q]) (h : 1 ≤ q.value f ∧ q.value f ≤ s.p) : s.checkRegs op f done = done :=
  State.checkRegs_ok (by rw [hop, firstBadField_cons_of_names [] h]; rfl)

/-- An operation whose first register operand names no register raises OperandError for it. -/
theorem State.checkRegs_first_of_not {s : State} {op : Opcode} {f : Fields} {q : RegField} {rest : List RegField}
    (done : State) (hop : regFields op = q :: rest) (h : ¬ (1 ≤ q.value f ∧ q.value f ≤ s.p)) :
    s.checkRegs op f done = s.raiseHalt (.operand s.pc q (q.value f)) :=
  State.checkRegs_bad (by rw [hop, firstBadField_cons_of_not rest h])

/-! ADD's own two checks. -/

theorem atCapacity_eq_false_iff (q : Params) (v : Seq) :
    atCapacity q v = false ↔ ∀ cap, q.cap = some cap → v.length < cap := by
  simp [← Bool.not_eq_true, atCapacity_iff]

theorem State.appendSymbol_of_room {s : State} {y j : Nat} (hj : 1 ≤ j ∧ j ≤ s.k)
    (hroom : atCapacity s.params (s.readReg y) = false) :
    s.appendSymbol y j = (s.writeReg y (seqAppend (s.readReg y) j)).nextPc := by
  simp [State.appendSymbol, (isSymbol_iff s.k j).mpr hj, hroom]

/-- The alphabet check comes first: AlphabetError, even of a full register (41_sequence_ops.md R110). -/
theorem State.appendSymbol_of_not_symbol {s : State} (y : Nat) {j : Nat} (hj : ¬ (1 ≤ j ∧ j ≤ s.k)) :
    s.appendSymbol y j = s.raiseHalt (.alphabetAdd s.pc j) :=
  if_neg (mt (isSymbol_iff s.k j).mp hj)

theorem State.appendSymbol_of_full {s : State} {y j : Nat} (hj : 1 ≤ j ∧ j ≤ s.k)
    (hfull : atCapacity s.params (s.readReg y) = true) :
    s.appendSymbol y j = s.raiseHalt (.capacity s.pc y) := by
  simp [State.appendSymbol, (isSymbol_iff s.k j).mpr hj, hfull]

/-! The four instructions. -/

/-- A register written and PC + 1, in terms of the bank: nothing else changes. -/
theorem State.nextPc_writeReg (s : State) {i : Nat} (v : Seq) (h : 1 ≤ i) :
    (s.writeReg i v).nextPc = { s with bank := s.bank.set (i - 1) v, pc := s.pc + 1 } := by
  rw [State.writeReg_pos s v h]; rfl

/-- Settles O6: the operand check on Y, then the alphabet check, then the capacity check, then the append. -/
theorem addAppends : Obligations.AddAppends := by
  unfold Obligations.AddAppends
  intro f s
  refine ⟨rfl, fun hy => ?_, fun hy hy' => ?_⟩
  · rw [exec_add, State.checkRegs_first_of_not (q := .y) _ rfl hy]; rfl
  · rw [exec_add, State.checkRegs_single_of_names (q := .y) _ rfl ⟨hy, hy'⟩, ← s.readReg_pos hy]
    refine ⟨fun hj hj' hroom => ?_, fun hj => ?_, fun hj hj' cap hcap hfull => ?_⟩
    · have hfree : atCapacity s.params (s.readReg f.y) = false := (atCapacity_eq_false_iff _ _).mpr hroom
      rw [State.appendSymbol_of_room ⟨hj, hj'⟩ hfree, State.nextPc_writeReg s _ hy, seqAppend]
    · rw [State.appendSymbol_of_not_symbol f.y hj]
    · have hat : atCapacity s.params (s.readReg f.y) = true := (atCapacity_iff _ _).mpr ⟨cap, hcap, hfull⟩
      rw [State.appendSymbol_of_full ⟨hj, hj'⟩ hat]

/-- Settles O7: the sequence without its first symbol is the tail, and the tail of the empty sequence is empty. -/
theorem tailRemovesFirst : Obligations.TailRemovesFirst := by
  unfold Obligations.TailRemovesFirst
  intro f s
  refine ⟨rfl, fun hy => ?_, fun hy hy' => ?_⟩
  · rw [exec_tail, State.checkRegs_first_of_not (q := .y) _ rfl hy]; rfl
  · rw [exec_tail, State.checkRegs_single_of_names (q := .y) _ rfl ⟨hy, hy'⟩, State.nextPc_writeReg s _ hy,
      seqPop, List.drop_one, s.readReg_pos hy]

/-- Settles O8: the value written is the empty sequence, whatever the register held. -/
theorem clrEmpties : Obligations.ClrEmpties := by
  unfold Obligations.ClrEmpties
  intro f s
  refine ⟨rfl, fun hx => ?_, fun hx hx' => ?_⟩
  · rw [exec_clr, State.checkRegs_first_of_not (q := .x) _ rfl hx]; rfl
  · rw [exec_clr, State.checkRegs_single_of_names (q := .x) _ rfl ⟨hx, hx'⟩, State.nextPc_writeReg s _ hx, seqClear]

/-- Settles O9: the operand check on X, then on Y; the value written to X is the one Y held before. -/
theorem assignCopies : Obligations.AssignCopies := by
  unfold Obligations.AssignCopies
  intro f s
  have hregs : regFields .assign = [.x, .y] := rfl
  refine ⟨rfl, fun hx => ?_, fun hx hx' hy => ?_, fun hx hx' hy hy' => ?_⟩
  · rw [exec_assign, State.checkRegs_first_of_not (q := .x) _ hregs hx]; rfl
  · have hbad : firstBadField s.p f (regFields .assign) = some .y := by
      rw [hregs, firstBadField_cons_of_names (q := .x) _ ⟨hx, hx'⟩, firstBadField_cons_of_not (q := .y) _ hy]
    rw [exec_assign, State.checkRegs_bad hbad]; rfl
  · have hok : firstBadField s.p f (regFields .assign) = none := by
      rw [hregs, firstBadField_cons_of_names (q := .x) _ ⟨hx, hx'⟩, firstBadField_cons_of_names (q := .y) _ ⟨hy, hy'⟩]
      rfl
    rw [exec_assign, State.checkRegs_ok hok, State.nextPc_writeReg s _ hx, s.readReg_pos hy]

end Sys2Proof.Machine
end

section
/-! PROOFS of the jump family (42_jumps.md): the arbiter's three answers, then GOTOA, GOTOB, JMPA and JMPB by the
operand check, the guard and the arbiter. -/

namespace Sys2Proof.Machine

/-! The arbiter, one case at a time. -/

/-- A listed target that obeys the direction is the new PC (42_jumps.md R120). -/
theorem State.takeJump_of_directionOk {s : State} {label t : Nat} {dir : Dir}
    (ht : Table.get s.lidx label = some t) (hdir : directionOk dir t s.pc = true) :
    s.takeJump label dir = { s with pc := t } := by
  simp only [State.takeJump, State.resolve, ht, hdir, if_true]
  rfl

/-- A listed target that does not obey the direction is the violation (42_jumps.md R121). -/
theorem State.takeJump_of_not_directionOk {s : State} {label t : Nat} {dir : Dir}
    (ht : Table.get s.lidx label = some t) (hdir : directionOk dir t s.pc = false) :
    s.takeJump label dir = s.raiseHalt (.directionViolation dir label s.pc t) := by
  simp [State.takeJump, State.resolve, ht, hdir]

/-- An unlisted label is MissingLabelError, whatever the direction (42_jumps.md R120). -/
theorem State.takeJump_of_absent {s : State} {label : Nat} (dir : Dir) (hnone : Table.get s.lidx label = none) :
    s.takeJump label dir = s.raiseHalt (.missingLabel label s.pc) := by
  simp [State.takeJump, State.resolve, hnone]

/-- Direction A: strictly below PC jumps, PC itself and above is the violation. -/
theorem State.takeJump_earlier (s : State) (label : Nat) :
    (∀ t, Table.get s.lidx label = some t → t < s.pc → s.takeJump label .earlier = { s with pc := t }) ∧
    (∀ t, Table.get s.lidx label = some t → s.pc ≤ t →
      s.takeJump label .earlier = s.raiseHalt (.directionViolation .earlier label s.pc t)) ∧
    (Table.get s.lidx label = none → s.takeJump label .earlier = s.raiseHalt (.missingLabel label s.pc)) :=
  ⟨fun _ ht hlt => State.takeJump_of_directionOk ht (decide_eq_true hlt),
    fun _ ht hle => State.takeJump_of_not_directionOk ht (decide_eq_false hle.not_gt),
    State.takeJump_of_absent .earlier⟩

/-- Direction B: strictly above PC jumps, PC itself and below is the violation. -/
theorem State.takeJump_later (s : State) (label : Nat) :
    (∀ t, Table.get s.lidx label = some t → s.pc < t → s.takeJump label .later = { s with pc := t }) ∧
    (∀ t, Table.get s.lidx label = some t → t ≤ s.pc →
      s.takeJump label .later = s.raiseHalt (.directionViolation .later label s.pc t)) ∧
    (Table.get s.lidx label = none → s.takeJump label .later = s.raiseHalt (.missingLabel label s.pc)) :=
  ⟨fun _ ht hlt => State.takeJump_of_directionOk ht (decide_eq_true hlt),
    fun _ ht hle => State.takeJump_of_not_directionOk ht (decide_eq_false hle.not_gt),
    State.takeJump_of_absent .later⟩

/-! The guard (42_jumps.md R123). -/

theorem State.condJump_of_guard {s : State} {f : Fields} {rest : Seq} (dir : Dir)
    (hguard : s.readReg f.x = f.j :: rest) : s.condJump f dir = s.takeJump f.y dir :=
  if_pos ((guardHolds_iff _ _).mpr ⟨rest, hguard⟩)

/-- The guard false, the label is not looked at. -/
theorem State.condJump_of_not_guard {s : State} {f : Fields} (dir : Dir)
    (hguard : ∀ rest, s.readReg f.x ≠ f.j :: rest) : s.condJump f dir = { s with pc := s.pc + 1 } :=
  if_neg (mt (guardHolds_iff _ _).mp (not_exists.mpr hguard))

/-- A conditional jump, whichever its direction: the operand check on X, then the guard, then the arbiter. -/
theorem State.checkRegs_condJump (s : State) {op : Opcode} (f : Fields) (dir : Dir) (hop : regFields op = [.x]) :
    (¬ (1 ≤ f.x ∧ f.x ≤ s.p) → s.checkRegs op f (s.condJump f dir) = s.raiseHalt (.operand s.pc .x f.x)) ∧
    (1 ≤ f.x → f.x ≤ s.p →
      ((∀ rest, s.bank.getD (f.x - 1) [] ≠ f.j :: rest) →
        s.checkRegs op f (s.condJump f dir) = { s with pc := s.pc + 1 }) ∧
      ∀ rest, s.bank.getD (f.x - 1) [] = f.j :: rest →
        s.checkRegs op f (s.condJump f dir) = s.takeJump f.y dir) := by
  refine ⟨State.checkRegs_first_of_not (q := .x) _ hop, fun hx hx' => ?_⟩
  rw [State.checkRegs_single_of_names (q := .x) _ hop ⟨hx, hx'⟩, ← s.readReg_pos hx]
  exact ⟨State.condJump_of_not_guard dir, fun _ => State.condJump_of_guard dir⟩

/-! The dispatcher's four arms. GOTOA and GOTOB have no register operand to check (40_startup_and_step_fsm.md R94). -/

theorem exec_gotoa (f : Fields) (s : State) : exec (.gotoa f) s = .next (s.takeJump f.y .earlier) := rfl

theorem exec_gotob (f : Fields) (s : State) : exec (.gotob f) s = .next (s.takeJump f.y .later) := rfl

theorem exec_jmpa (f : Fields) (s : State) :
    exec (.jmpa f) s = .next (s.checkRegs .jmpa f (s.condJump f .earlier)) := rfl

theorem exec_jmpb (f : Fields) (s : State) :
    exec (.jmpb f) s = .next (s.checkRegs .jmpb f (s.condJump f .later)) := rfl

/-! The four instructions. -/

/-- Settles O10: the arbiter's three answers in direction A. -/
theorem gotoaJumpsEarlier : Obligations.GotoaJumpsEarlier := by
  unfold Obligations.GotoaJumpsEarlier
  intro f s
  simp only [exec_gotoa, Host.Outcome.next.injEq]
  exact ⟨rfl, s.takeJump_earlier f.y⟩

/-- Settles O11: the arbiter's three answers in direction B. -/
theorem gotobJumpsLater : Obligations.GotobJumpsLater := by
  unfold Obligations.GotobJumpsLater
  intro f s
  simp only [exec_gotob, Host.Outcome.next.injEq]
  exact ⟨rfl, s.takeJump_later f.y⟩

/-- Settles O12: the operand check on X, then the guard, then the arbiter in direction A. -/
theorem jmpaJumpsIfGuard : Obligations.JmpaJumpsIfGuard := by
  unfold Obligations.JmpaJumpsIfGuard
  intro f s
  simp only [exec_jmpa, Host.Outcome.next.injEq]
  obtain ⟨hoperand, hchecked⟩ := s.checkRegs_condJump (op := .jmpa) f .earlier rfl
  refine ⟨rfl, hoperand, fun hx hx' => ?_⟩
  obtain ⟨hfalse, htrue⟩ := hchecked hx hx'
  refine ⟨hfalse, fun rest hguard => ?_⟩
  rw [htrue rest hguard]
  exact s.takeJump_earlier f.y

/-- Settles O13: the operand check on X, then the guard, then the arbiter in direction B. -/
theorem jmpbJumpsIfGuard : Obligations.JmpbJumpsIfGuard := by
  unfold Obligations.JmpbJumpsIfGuard
  intro f s
  simp only [exec_jmpb, Host.Outcome.next.injEq]
  obtain ⟨hoperand, hchecked⟩ := s.checkRegs_condJump (op := .jmpb) f .later rfl
  refine ⟨rfl, hoperand, fun hx hx' => ?_⟩
  obtain ⟨hfalse, htrue⟩ := hchecked hx hx'
  refine ⟨hfalse, fun rest hguard => ?_⟩
  rw [htrue rest hguard]
  exact s.takeJump_later f.y

end Sys2Proof.Machine
end


section
/-! PROOFS of the halt family (43_halt.md): the clean halt written out, CONTINUE, and the step that fetches it. -/

namespace Sys2Proof.Machine

/-- The clean halt's INFO is 0 at every width of the INFO registers (60_exceptions.md R151). -/
theorem State.raiseHalt_clean (s : State) :
    s.raiseHalt .clean = { s with phase := .halted, cause := .clean, info := ⟨0, 0, 0, 0⟩ } := by
  have hinfo : Halt.clean.info.latch s.params = ⟨0, 0, 0, 0⟩ := by
    simp [Halt.info, Info.latch, Info.zero]
  rw [State.raiseHalt, hinfo]
  rfl

/-- CONTINUE has no register field, so its operand check lets the halt through (30_encoding.md R65). -/
theorem exec_cont (f : Fields) (s : State) : exec (.cont f) s = .next (s.raiseHalt .clean) :=
  congrArg Host.Outcome.next (State.checkRegs_ok rfl)

/-- With PC in range and CONTINUE there, item 5 finds the run ended and counts nothing
(40_startup_and_step_fsm.md R96). -/
theorem step_of_cont {s : State} {f : Fields} (hr : Running s) (hp : PcInRange s)
    (hi : s.instrAt s.pc = some (.cont f)) : step s = .next (s.afterQuiet.emit.raiseHalt .clean) := by
  rw [step_of_instrAt hr hp hi (exec_cont f _), State.countStep_of_halted (State.raiseHalt_phase _ _)]

/-- Settles O14: exec is the clean halt, and the step is that halt on the state with the snapshot. -/
theorem continueHaltsCleanly : Obligations.ContinueHaltsCleanly := by
  unfold Obligations.ContinueHaltsCleanly
  intro f s
  refine ⟨rfl, ?_, fun hr hp hi => ?_⟩
  · rw [exec_cont, State.raiseHalt_clean]
  · rw [step_of_cont hr hp hi, State.raiseHalt_clean]
    rfl

end Sys2Proof.Machine
end

section
/-! PROOFS of the exception family (60_exceptions.md): the operand check, which every instruction begins with, and the
Loader's first collision. -/

namespace Sys2Proof.Machine

/-! The operand check. -/

/-- Every instruction is the operand check on its register fields, before anything it does
(40_startup_and_step_fsm.md R94). -/
theorem exec_eq_checkRegs (i : Instr) (s : State) :
    ∃ done, exec i s = .next (s.checkRegs i.opcode i.fields done) := by
  cases i with
  | add f => exact ⟨_, exec_add f s⟩
  | tail f => exact ⟨_, exec_tail f s⟩
  | clr f => exact ⟨_, exec_clr f s⟩
  | assign f => exact ⟨_, exec_assign f s⟩
  | gotoa f => exact ⟨_, exec_gotoa f s⟩
  | gotob f => exact ⟨_, exec_gotob f s⟩
  | jmpa f => exact ⟨_, exec_jmpa f s⟩
  | jmpb f => exact ⟨_, exec_jmpb f s⟩
  | cont f => exact ⟨_, exec_cont f s⟩

/-- An instruction whose first register field names no register raises OperandError for it, whatever its other fields
hold and whatever it would have done. -/
theorem exec_of_first_operand_not {i : Instr} {s : State} {q : RegField} {rest : List RegField}
    (hop : regFields i.opcode = q :: rest) (h : ¬ (1 ≤ q.value i.fields ∧ q.value i.fields ≤ s.p)) :
    exec i s = .next (s.raiseHalt (.operand s.pc q (q.value i.fields))) := by
  obtain ⟨done, hexec⟩ := exec_eq_checkRegs i s
  rw [hexec, State.checkRegs_first_of_not done hop h]

/-- Settles O15: X is the first register field of CLR, ASSIGN, JMPA and JMPB, and Y that of ADD and TAIL; the Y of ASSIGN
is checked when its X is good, which is a clause of O9. -/
theorem operandCheck : Obligations.OperandCheck := by
  unfold Obligations.OperandCheck
  intro f s
  obtain ⟨-, -, hassignY, -⟩ := assignCopies f s
  refine ⟨fun hx => ?_, fun hy => ?_, hassignY⟩
  · simp only [List.forall_mem_cons, List.not_mem_nil, false_implies, implies_true, and_true]
    exact ⟨exec_of_first_operand_not (i := .clr f) rfl hx, exec_of_first_operand_not (i := .assign f) rfl hx,
      exec_of_first_operand_not (i := .jmpa f) rfl hx, exec_of_first_operand_not (i := .jmpb f) rfl hx⟩
  · simp only [List.forall_mem_cons, List.not_mem_nil, false_implies, implies_true, and_true]
    exact ⟨exec_of_first_operand_not (i := .add f) rfl hy, exec_of_first_operand_not (i := .tail f) rfl hy⟩

/-! The Loader's first collision. -/

/-- An exact index that reaches past a position lists the position's label there, so no two positions behind it declare
one label. -/
theorem IndexUpTo.labels_distinct {q : Params} {m : Memory} {base pos : Nat} {ix : Lidx}
    (h : IndexUpTo q m base pos ix) {lab a b : Nat} (ha : base ≤ a) (ha' : a < pos) (hb : base ≤ b) (hb' : b < pos)
    (hla : labelAt q m a = some lab) (hlb : labelAt q m b = some lab) : a = b :=
  Option.some.inj ((h.complete lab a ha ha' hla).symm.trans (h.complete lab b hb hb' hlb))

/-- Where `second` is the first position to repeat a label, loading ends there: stopped before it the Loader would have
met an earlier repetition, and past it the index could not be exact. -/
theorem loadLabels_of_first_collision {q : Params} {l : Launch} {lab first second : Nat} (hfirst : 1 ≤ first)
    (hlt : first < second) (hle : second ≤ l.progLen) (hlf : l.labelAt q first = some lab)
    (hls : l.labelAt q second = some lab) (hd : LabelsDistinct q l (second - 1)) :
    ∃ ix, loadLabels q (Memory.ofProgram l.program) 1 l.progLen [] = .duplicate lab first second ix := by
  have hpast : ∀ {pos ix}, IndexUpTo q (Memory.ofProgram l.program) 1 pos ix → pos ≤ second := fun hix =>
    Nat.not_lt.mp fun hpos =>
      hlt.ne (hix.labels_distinct hfirst (hlt.trans hpos) (by omega) hpos hlf hls)
  rcases loadLabels_cases l.progLen (IndexUpTo.empty q (Memory.ofProgram l.program)) (Nat.le_refl 1)
      List.Pairwise.nil with ⟨ix, -, hix, -⟩ | ⟨lab', first', second', ix, hload, -, hlo, -, hix, hls', hget⟩
  · have := hpast hix
    omega
  · obtain ⟨hlo', hlt', hlf'⟩ := hix.sound lab' first' hget
    have hnotBefore : second ≤ second' := Nat.not_lt.mp fun hbefore =>
      hlt'.ne (hd lab' first' second' hlo' (by omega) hlo (by omega) hlf' hls')
    obtain rfl : second' = second := (hpast hix).antisymm hnotBefore
    obtain rfl : lab' = lab := Option.some.inj (hls'.symm.trans hls)
    obtain rfl : first' = first := Option.some.inj (hget.symm.trans (hix.complete lab' first hfirst hlt hlf))
    exact ⟨ix, hload⟩

theorem State.loadAndSeed_of_duplicate {s : State} (l : Launch) {lab first second : Nat} {ix : Lidx}
    (h : loadLabels s.params s.store 1 s.progLen [] = .duplicate lab first second ix) :
    s.loadAndSeed l = ({ s with lidx := ix } : State).raiseHalt (.duplicateLabel lab first second) := by
  simp only [State.loadAndSeed, h]

/-- Settles O36: the checks pass, and the Loader, which reads labels only and no jump, ends at the collision. -/
theorem duplicateLabelFirstCollision : Obligations.DuplicateLabelFirstCollision := by
  unfold Obligations.DuplicateLabelFirstCollision
  rintro s l rest lab first second ⟨hhost, hphase, hports, hcount⟩ hconfig hinputs hheld hfirst hlt hle hlf hls hd
  obtain ⟨ix, hload⟩ := loadLabels_of_first_collision hfirst hlt hle hlf hls hd
  refine ⟨ix, ?_⟩
  calc step s = (s.withHost rest).acceptStart l := step_of_start hhost hphase
    _ = .next (((s.withHost rest).latchLaunch l).loadAndSeed l) :=
      State.acceptStart_of_checks hports hcount hconfig hinputs hheld
    _ = _ := congrArg _ (State.loadAndSeed_of_duplicate l hload)

end Sys2Proof.Machine
end

section
/-! PROOFS of the reset and hazards family (70_reset_and_hazards.md): `reset` from any state, and the step of an
instruction that ends the run. -/

namespace Sys2Proof.Machine

/-! Reset. -/

/-- The host's `reset` is taken whatever PHASE is: the block's own step is not asked (70_reset_and_hazards.md R190). -/
theorem step_of_reset {s : State} {rest : List HostEvent} (h : s.host = .reset :: rest) :
    step s = .next (s.withHost rest).assertReset := by
  simp only [step, State.transition, h]

/-- Settles O42: the transition is `assertReset`, which keeps the parameters, the store and the rest of the host's list
and writes every other field. -/
theorem resetFromAnyState : Obligations.ResetFromAnyState := by
  unfold Obligations.ResetFromAnyState
  intro s rest hreset
  rw [step_of_reset hreset]
  rfl

/-! An instruction that ends the run. -/

/-- An instruction that ends a run does nothing but raise a halt: of its effects only a halt writes PHASE
(60_exceptions.md R164). -/
theorem exists_raiseHalt_of_exec {i : Instr} {s u : State} (hrun : s.phase = .run) (hexec : exec i s = .next u)
    (hhalted : u.phase = .halted) : ∃ h, u = s.raiseHalt h := by
  rcases (effect_of_exec hexec).status with ⟨hphase, -, -⟩ | ⟨h, -, hraised⟩
  · rw [hphase, hrun] at hhalted
    cases hhalted
  · exact ⟨h, hraised⟩

/-- Settles O22: the step answers what the instruction left (item 5 does not count it), and that is a halt raised on
the state with its snapshot, which has the PC, the bank and the STEPCNT of the state before. -/
theorem raisingInstrUpdatesNothing : Obligations.RaisingInstrUpdatesNothing := by
  unfold Obligations.RaisingInstrUpdatesNothing
  intro s u t i hr hp hi hexec hhalted hstep
  have hrun : s.afterQuiet.emit.phase = .run := hr.1
  obtain ⟨h, rfl⟩ := exists_raiseHalt_of_exec hrun hexec hhalted
  rw [step_of_instrAt hr hp hi hexec, State.countStep_of_halted hhalted] at hstep
  cases hstep
  exact ⟨rfl, rfl, rfl⟩

end Sys2Proof.Machine
end

section
/-! PROOFS of the encoder (30_encoding.md): each field of the word an instruction encodes to, decode after encode, and
the decoder's totality. -/

namespace Sys2Proof

/-! The word of an instruction. -/

theorem lvBit_lt (f : Fields) : lvBit f < 2 ^ 1 := by
  unfold lvBit
  split <;> decide

/-- The fields of a well-formed instruction fit their widths, LABEL among them whether or not it is declared. -/
theorem Fields.fits_of_wf {W : Widths} {f : Fields} (h : f.wf W = true) :
    labelBits f < 2 ^ W.lblW ∧ f.x < 2 ^ W.regW ∧ f.j < 2 ^ W.symW ∧ f.y < 2 ^ W.yW := by
  simp only [Fields.wf, Bool.and_eq_true, decide_eq_true_eq] at h
  obtain ⟨⟨⟨hlabel, hx⟩, hj⟩, hy⟩ := h
  refine ⟨?_, hx, hj, hy⟩
  cases hl : f.label with
  | none => simp [labelBits, hl]
  | some l => simpa [labelBits, Fields.labelFits, hl] using hlabel

/-- The label is read back from LV and LABEL (30_encoding.md R69). -/
theorem label_of_bits (f : Fields) : (if lvBit f = 1 then some (labelBits f) else none) = f.label := by
  cases hl : f.label with
  | none => simp [lvBit, hl]
  | some l => simp [lvBit, labelBits, hl]

/-- The word of a well-formed instruction, field by field: RES is 0, and each other field holds what was put there. -/
theorem bitField_encode {W : Widths} {i : Instr} (h : i.wf W = true) :
    bitField (encode W i) W.lvLo 1 = lvBit i.fields ∧ bitField (encode W i) W.resLo W.resW = 0 ∧
    bitField (encode W i) W.labelLo W.lblW = labelBits i.fields ∧ bitField (encode W i) W.xLo W.regW = i.fields.x ∧
    bitField (encode W i) W.opLo opcW = i.opcode.code ∧ bitField (encode W i) W.jLo W.symW = i.fields.j ∧
    bitField (encode W i) W.yLo W.yW = i.fields.y := by
  obtain ⟨hlabel, hx, hj, hy⟩ := Fields.fits_of_wf h
  have hop := i.opcode.code_lt
  have hres : 0 < 2 ^ W.resW := Nat.two_pow_pos _
  have hlv : bitField (lvBit i.fields) 0 1 = lvBit i.fields := by
    simpa using bitField_low (hi := 0) (lvBit_lt i.fields)
  rw [encode_eq]
  refine ⟨?_, ?_, ?_, ?_, ?_, ?_, bitField_low hy⟩
  · rw [show W.lvLo = W.yW + (W.symW + (opcW + (W.regW + (W.lblW + (W.resW + 0))))) by simp only [Widths.lvLo]; omega,
      bitField_high hy, bitField_high hj, bitField_high hop, bitField_high hx, bitField_high hlabel, bitField_high hres,
      hlv]
  · rw [show W.resLo = W.yW + (W.symW + (opcW + (W.regW + (W.lblW + 0)))) by simp only [Widths.resLo]; omega,
      bitField_high hy, bitField_high hj, bitField_high hop, bitField_high hx, bitField_high hlabel, bitField_low hres]
  · rw [show W.labelLo = W.yW + (W.symW + (opcW + (W.regW + 0))) by simp only [Widths.labelLo]; omega,
      bitField_high hy, bitField_high hj, bitField_high hop, bitField_high hx, bitField_low hlabel]
  · rw [show W.xLo = W.yW + (W.symW + (opcW + 0)) by simp only [Widths.xLo]; omega,
      bitField_high hy, bitField_high hj, bitField_high hop, bitField_low hx]
  · rw [show W.opLo = W.yW + (W.symW + 0) from rfl, bitField_high hy, bitField_high hj, bitField_low hop]
  · rw [show W.jLo = W.yW + 0 from rfl, bitField_high hy, bitField_low hj]

/-- The word of a well-formed instruction fits the word width (30_encoding.md R63). -/
theorem encode_lt {W : Widths} {i : Instr} (h : i.wf W = true) : encode W i < 2 ^ W.wordW := by
  obtain ⟨hlabel, hx, hj, hy⟩ := Fields.fits_of_wf h
  rw [encode_eq]
  exact concat_lt (concat_lt (concat_lt (concat_lt (concat_lt (concat_lt (lvBit_lt _) (Nat.two_pow_pos _)) hlabel) hx)
    i.opcode.code_lt) hj) hy

/-- The decoder's fields of the word are the instruction's. -/
theorem wordFields_encode {W : Widths} {i : Instr} (h : i.wf W = true) : wordFields W (encode W i) = i.fields := by
  obtain ⟨hlv, -, hlabel, hx, -, hj, hy⟩ := bitField_encode h
  simp only [wordFields, wordLabel, hlv, hlabel, hx, hj, hy, label_of_bits]

/-- Settles O2: RES of the word is 0, OPCODE is the operation's number and the fields are the instruction's, which is
what the decoder asks for. -/
theorem decodeOfEncode : Obligations.DecodeOfEncode := by
  unfold Obligations.DecodeOfEncode
  intro W i h
  obtain ⟨-, hres, -, -, hop, -, -⟩ := bitField_encode h
  exact ⟨encode_lt h, decode_eq_instr_iff.mpr ⟨hres, hop, (wordFields_encode h).symm⟩⟩

/-! The decoder. -/

/-- Settles O3: when a word is illegal, and the operation and the fields of the instruction it is otherwise. -/
theorem decoderIsTotal : Obligations.DecoderIsTotal := by
  unfold Obligations.DecoderIsTotal
  intro W w
  refine ⟨decode_illegal_iff W w, fun i hdecode => ?_⟩
  obtain ⟨-, hop, hfields⟩ := decode_eq_instr_iff.mp hdecode
  exact ⟨hop.symm, hfields⟩

/-- Settles O1: eight fixed words, each decoded by computation. -/
theorem workedWordsDecode : Obligations.WorkedWordsDecode := by
  unfold Obligations.WorkedWordsDecode
  decide

end Sys2Proof
end

section
/-! PROOFS of the control word (30_encoding.md R75) and of the frames: the four parts driven by an operation's control
word, what each instruction leaves unchanged, and the consequences for ASSIGN and for executed jumps. -/

namespace Sys2Proof.Machine

/-! The four parts. -/

/-- The mux selects exactly the register fields the operand check looks at, in the same order. -/
theorem muxFields_controlWord (op : Opcode) : muxFields (controlWord op) = regFields op := by cases op <;> rfl

/-- The operand check stands before the four parts. -/
theorem driveControl_controlWord (op : Opcode) (f : Fields) (s : State) :
    driveControl (controlWord op) f s =
      s.checkRegs op f (driveParts (controlWord op) f s (muxRead (controlWord op) f s)) := by
  cases hbad : firstBadField s.p f (regFields op) with
  | some q => rw [State.checkRegs_bad hbad]; simp only [driveControl, muxFields_controlWord, hbad]
  | none => rw [State.checkRegs_ok hbad]; simp only [driveControl, muxFields_controlWord, hbad]

/-- Without a jump and a halt the parts are the datapath and the register write. -/
theorem driveParts_of_ok {c : Control} {f : Fields} {s : State} {v v' : Seq} {t : Nat} (hhalt : c.halt = false)
    (hdata : datapath c f s v = .ok v') (harb : arbiter c f s v = .ok t) :
    driveParts c f s v = (muxWrite c f v' s).setPc t := by
  simp [driveParts, hhalt, hdata, harb]

/-- A control word that only jumps is the arbiter alone: taken, as `takeJump`; else PC + 1. -/
theorem driveParts_of_jump {c : Control} {s : State} (f : Fields) (v : Seq) (hhalt : c.halt = false)
    (hseq : c.seqOp = .none) (hwsel : c.wsel = none) :
    driveParts c f s v = if jumpTaken c f v then s.takeJump f.y c.dir else s.nextPc := by
  have hdata : datapath c f s v = .ok v := by simp [datapath, hseq]
  have hwrite : muxWrite c f v s = s := by simp [muxWrite, hwsel]
  simp only [driveParts, hhalt, hdata, hwrite, arbiter, State.takeJump]
  cases jumpTaken c f v with
  | false => rfl
  | true => cases s.resolve f.y c.dir <;> rfl

/-- ADD's own two checks are the datapath's. -/
theorem driveParts_add (f : Fields) (s : State) :
    driveParts (controlWord .add) f s (s.readReg f.y) = s.appendSymbol f.y f.j := by
  rcases s.appendSymbol_cases f.y f.j with ⟨hsym, hroom, he⟩ | ⟨hsym, he⟩ | ⟨hsym, hfull, he⟩ <;> rw [he]
  · have hdata : datapath (controlWord .add) f s (s.readReg f.y) = .ok (seqAppend (s.readReg f.y) f.j) := by
      simp [datapath, controlWord, hsym, hroom]
    rw [driveParts_of_ok rfl hdata rfl, State.nextPc, State.writeReg_pc]
    rfl
  · simp [driveParts, datapath, controlWord, hsym]
  · simp [driveParts, datapath, controlWord, hsym, hfull]

/-- Past the operand check, a control word that changes a register without a check of its own writes the value and goes
on. -/
theorem driveParts_writes {c : Control} {f : Fields} {s : State} {v v' : Seq} {q : RegField} (hhalt : c.halt = false)
    (hjmp : c.jmp = .never) (hwsel : c.wsel = some q) (hdata : datapath c f s v = .ok v') :
    driveParts c f s v = (s.writeReg (q.value f) v').nextPc := by
  have harb : arbiter c f s v = .ok (s.pc + 1) := by simp [arbiter, jumpTaken, hjmp]
  rw [driveParts_of_ok hhalt hdata harb, State.nextPc, State.writeReg_pc]
  simp only [muxWrite, hwsel]

/-- What an operation does past its operand check decides whether its control word does the same. -/
theorem exec_eq_driveControl {i : Instr} {s done : State}
    (hexec : exec i s = .next (s.checkRegs i.opcode i.fields done))
    (hparts : driveParts (controlWord i.opcode) i.fields s (muxRead (controlWord i.opcode) i.fields s) = done) :
    exec i s = .next (driveControl (controlWord i.opcode) i.fields s) := by
  rw [driveControl_controlWord, hparts, hexec]

/-- Settles O18: the operand check is the same, and past it each operation's row of the table says what the operation
does. -/
theorem controlWordAgrees : Obligations.ControlWordAgrees := by
  unfold Obligations.ControlWordAgrees
  intro i s
  cases i with
  | add f => exact exec_eq_driveControl (exec_add f s) (driveParts_add f s)
  | tail f => exact exec_eq_driveControl (exec_tail f s) (driveParts_writes (q := .y) rfl rfl rfl rfl)
  | clr f => exact exec_eq_driveControl (exec_clr f s) (driveParts_writes (q := .x) rfl rfl rfl rfl)
  | assign f => exact exec_eq_driveControl (exec_assign f s) (driveParts_writes (q := .x) rfl rfl rfl rfl)
  | gotoa f => exact exec_eq_driveControl (exec_gotoa f s) (driveParts_of_jump _ _ rfl rfl rfl)
  | gotob f => exact exec_eq_driveControl (exec_gotob f s) (driveParts_of_jump _ _ rfl rfl rfl)
  | jmpa f => exact exec_eq_driveControl (exec_jmpa f s) (driveParts_of_jump _ _ rfl rfl rfl)
  | jmpb f => exact exec_eq_driveControl (exec_jmpb f s) (driveParts_of_jump _ _ rfl rfl rfl)
  | cont f => exact exec_eq_driveControl (exec_cont f s) rfl

/-! Frames. -/

/-- The bank keeps its size, whatever an instruction does. -/
theorem Effect.bank_length {i : Instr} {s t : State} (h : Effect i s t) : t.bank.length = s.bank.length := by
  cases h <;> simp

/-- Only the destination register changes (10_state.md R13). -/
theorem Effect.readReg_of_ne {i : Instr} {s t : State} (h : Effect i s t) {r : Nat} (hr : destReg i ≠ some r) :
    t.readReg r = s.readReg r := by
  cases h with
  | halts c raised => exact State.readReg_raiseHalt s c r
  | writes d v dest inBank value =>
    have hne : r ≠ d := fun e => hr (dest.trans (congrArg some e.symm))
    rw [State.readReg_nextPc, State.readReg_writeReg_of_ne s v hne]
  | falls dest => exact State.readReg_nextPc s r
  | jumps pos dest target dir => exact State.readReg_setPc s pos r

/-- An instruction with no destination register leaves the whole bank. -/
theorem Effect.bank_eq {i : Instr} {s t : State} (h : Effect i s t) (hd : destReg i = none) : t.bank = s.bank := by
  cases h with
  | halts c raised => rfl
  | writes d v dest inBank value => rw [hd] at dest; cases dest
  | falls dest => rfl
  | jumps pos dest target dir => rfl

/-- PHASE, CAUSE and INFO are left, or a halt was taken with PC and the bank left (60_exceptions.md R160, R164). -/
theorem Effect.sameStatus_or_halted {i : Instr} {s t : State} (h : Effect i s t) :
    SameStatus s t ∨ HaltedCleanly s t := by
  rcases h.status with hsame | ⟨c, -, rfl⟩
  · exact .inl hsame
  · exact .inr ⟨rfl, rfl, rfl⟩

/-- Settles O19: the frame of the effects, of which the four instructions have one each. -/
theorem sequenceFrame : Obligations.SequenceFrame := by
  unfold Obligations.SequenceFrame
  intro f s t i _ hexec
  have heffect := effect_of_exec hexec
  exact ⟨heffect.untouched, heffect.bank_length, fun r hr => heffect.readReg_of_ne hr, heffect.sameStatus_or_halted⟩

/-- Settles O20: a jump has no destination register. -/
theorem jumpFrame : Obligations.JumpFrame := by
  unfold Obligations.JumpFrame
  intro f s t i hi hexec
  have heffect := effect_of_exec hexec
  have hdest : destReg i = none := by
    simp only [List.mem_cons, List.not_mem_nil, or_false] at hi
    rcases hi with rfl | rfl | rfl | rfl <;> rfl
  exact ⟨heffect.untouched, heffect.bank_eq hdest, heffect.sameStatus_or_halted⟩

/-- Settles O21: CONTINUE is the clean halt. -/
theorem continueFrame : Obligations.ContinueFrame := by
  unfold Obligations.ContinueFrame
  intro f s t hexec
  refine ⟨(effect_of_exec hexec).untouched, ?_⟩
  rw [exec_cont] at hexec
  cases hexec
  exact ⟨rfl, rfl, rfl⟩

/-! An instruction's own label. -/

/-- Settles O17: the fields an instruction reads are x, j and y, and `unlabelled` keeps them. -/
theorem ownLabelIgnored : Obligations.OwnLabelIgnored := by
  unfold Obligations.OwnLabelIgnored
  intro i s
  cases i with
  | add f => exact congrArg Host.Outcome.next (s.checkRegs_congr _ fun q _ => by cases q <;> rfl)
  | tail f => exact congrArg Host.Outcome.next (s.checkRegs_congr _ fun q _ => by cases q <;> rfl)
  | clr f => exact congrArg Host.Outcome.next (s.checkRegs_congr _ fun q _ => by cases q <;> rfl)
  | assign f => exact congrArg Host.Outcome.next (s.checkRegs_congr _ fun q _ => by cases q <;> rfl)
  | gotoa f => rfl
  | gotob f => rfl
  | jmpa f => exact congrArg Host.Outcome.next (s.checkRegs_congr _ fun q _ => by cases q <;> rfl)
  | jmpb f => exact congrArg Host.Outcome.next (s.checkRegs_congr _ fun q _ => by cases q <;> rfl)
  | cont f => rfl

/-! A copy made by ASSIGN. -/

theorem exec_assign_of_names {f : Fields} {s : State} (hx : 1 ≤ f.x) (hx' : f.x ≤ s.p) (hy : 1 ≤ f.y)
    (hy' : f.y ≤ s.p) : exec (.assign f) s = .next (s.writeReg f.x (s.readReg f.y)).nextPc := by
  obtain ⟨-, -, -, hcopies⟩ := assignCopies f s
  rw [hcopies hx hx' hy hy', State.nextPc_writeReg s _ hx, s.readReg_pos hy]

/-- Settles O23: the copy is a write of Y's value to X, and an instruction that writes one of the two registers changes
no other. -/
theorem assignIsolates : Obligations.AssignIsolates := by
  unfold Obligations.AssignIsolates
  intro f s t hsized hx hx' hy hy' hexec
  rw [exec_assign_of_names hx hx' hy hy'] at hexec
  cases hexec
  have hcopy : (s.writeReg f.x (s.readReg f.y)).nextPc.readReg f.x = s.readReg f.y := by
    rw [State.readReg_nextPc, State.readReg_writeReg_self s _ hx (hsized ▸ hx')]
  refine ⟨fun hxy => ?_, hcopy, fun i u hne hexec => ?_⟩
  · rw [hxy, State.writeReg_readReg, State.nextPc_bank]
  have heffect := effect_of_exec hexec
  constructor
  · intro hdest
    rw [heffect.readReg_of_ne (by rw [hdest]; exact mt Option.some.inj hne), State.readReg_nextPc,
      State.readReg_writeReg_of_ne s _ hne.symm]
  · intro hdest
    rw [heffect.readReg_of_ne (by rw [hdest]; exact mt Option.some.inj hne.symm), hcopy]

/-! The direction of an executed jump. -/

/-- A jump that leaves the run going reached a target that obeys its direction. -/
theorem State.directionOk_of_takeJump_run {s : State} {label : Nat} {dir : Dir}
    (hrun : (s.takeJump label dir).phase = .run) : directionOk dir (s.takeJump label dir).pc s.pc = true := by
  rcases s.takeJump_cases label dir with ⟨t, -, hdir, he⟩ | ⟨-, he⟩ | ⟨t, -, -, he⟩
  · rw [he]; exact hdir
  · rw [he] at hrun; cases hrun
  · rw [he] at hrun; cases hrun

/-- A conditional jump that leaves the run going fell through or went in its own direction. -/
theorem Effect.jump_direction {i : Instr} {s t : State} (h : Effect i s t) (hd : destReg i = none)
    (hrun : t.phase = .run) :
    t.pc = s.pc + 1 ∨ (isBackward i = true ∧ t.pc < s.pc) ∨ (isForward i = true ∧ s.pc < t.pc) := by
  cases h with
  | halts c raised => cases hrun
  | writes d v dest inBank value => rw [hd] at dest; cases dest
  | falls dest => exact .inl rfl
  | jumps pos dest target dir => exact .inr dir

/-- Settles O24: GOTOA and GOTOB end the run unless the arbiter lets them through; JMPA and JMPB may also fall
through. -/
theorem executedJumpsKeepDirection : Obligations.ExecutedJumpsKeepDirection := by
  unfold Obligations.ExecutedJumpsKeepDirection
  intro f s t _ hrun
  refine ⟨fun hexec => ?_, fun hexec => ?_, fun hexec => ?_, fun hexec => ?_⟩
  · rw [exec_gotoa] at hexec
    cases hexec
    exact of_decide_eq_true (State.directionOk_of_takeJump_run hrun)
  · rw [exec_gotob] at hexec
    cases hexec
    exact of_decide_eq_true (State.directionOk_of_takeJump_run hrun)
  · rcases (effect_of_exec hexec).jump_direction rfl hrun with hnext | ⟨-, hback⟩ | ⟨hforward, -⟩
    · exact .inr hnext
    · exact .inl hback
    · cases hforward
  · rcases (effect_of_exec hexec).jump_direction rfl hrun with hnext | ⟨hbackward, -⟩ | ⟨-, hon⟩
    · omega
    · cases hbackward
    · exact hon

end Sys2Proof.Machine
end

section
/-! PROOFS of halt entry, the ports and the step (60_exceptions.md, 10_state.md section 5, 40_startup_and_step_fsm.md):
the cause and INFO tables, what a halt writes, what the host reads, the step on a decoded instruction, and the
transitions in which the block takes no step. -/

namespace Sys2Proof.Machine

/-! Halt entry. -/

theorem Cause.code_le (c : Cause) : c.code ≤ 11 := by cases c <;> decide

/-- Settles O25: the causes are numbered by definition, and the last of the twelve is 11. -/
theorem causeCodes : Obligations.CauseCodes := by
  unfold Obligations.CauseCodes
  exact ⟨rfl, rfl, fun _ _ _ => rfl, fun _ _ => rfl, fun _ _ _ => rfl, fun _ _ => rfl, fun _ _ _ _ => rfl,
    fun _ _ => rfl, fun _ _ => rfl, fun _ _ => rfl, fun _ _ _ => rfl, fun _ _ => rfl, fun _ _ => rfl, Cause.code_le⟩

/-- Settles O26: each row is the halt's clause of `Halt.info`. -/
theorem infoTable : Obligations.InfoTable := by
  unfold Obligations.InfoTable
  exact ⟨rfl, fun _ _ _ => rfl, fun _ _ => rfl, fun _ _ _ => rfl, fun _ _ => rfl, fun _ _ _ => rfl, fun _ _ _ => rfl,
    fun _ _ => rfl, fun _ _ => rfl, fun _ _ => rfl, fun _ _ => rfl, fun _ _ => rfl, fun _ _ => rfl, fun _ _ => rfl⟩

/-- Settles O27: a detail that fits its register is latched as it is, and what is latched always fits. -/
theorem haltEntry : Obligations.HaltEntry := by
  unfold Obligations.HaltEntry
  intro s h
  refine ⟨⟨_, rfl⟩, infoField_fits, infoField_fits, infoField_fits, infoField_fits, fun W hW => ?_⟩
  exact ⟨infoField_lt hW _, infoField_lt hW _, infoField_lt hW _, infoField_lt hW _⟩

/-! What the host reads. -/

theorem Phase.code_lt (ph : Phase) : ph.code < 2 ^ 2 := by cases ph <;> decide

/-- A low part appended to a bit vector is added to the high part, moved past it. -/
theorem toNat_append_eq_add {n m : Nat} (x : BitVec n) (y : BitVec m) :
    (x ++ y).toNat = 2 ^ m * x.toNat + y.toNat := by
  rw [BitVec.toNat_append, ← Nat.shiftLeft_add_eq_or_of_lt y.isLt, Nat.shiftLeft_eq, Nat.mul_comm]

/-- STATUS as a number: the four slices beside one another (10_state.md R29). -/
theorem State.status_toNat (s : State) :
    s.status.toNat = s.phase.code + (if s.outValid then 4 else 0) + 16 * s.cause.code := by
  have hcause : s.cause.code % 2 ^ 4 = s.cause.code := Nat.mod_eq_of_lt (by have := s.cause.code_le; omega)
  have hphase : s.phase.code % 2 ^ 2 = s.phase.code := Nat.mod_eq_of_lt s.phase.code_lt
  simp only [State.status, toNat_append_eq_add, BitVec.toNat_ofNat, BitVec.toNat_ofBool, hcause, hphase]
  cases s.outValid <;> simp only [Bool.toNat_true, Bool.toNat_false, if_true, Bool.false_eq_true, if_false] <;> omega

/-- Settles O44: each number reads its register, number 5 the four parts of STATUS, and after reset twelve fixed
values. -/
theorem statusReadPort : Obligations.StatusReadPort := by
  unfold Obligations.StatusReadPort
  refine ⟨⟨rfl, rfl, rfl⟩, fun s => ?_, fun no hno => ?_⟩
  · exact ⟨rfl, rfl, rfl, rfl, rfl, congrArg some s.status_toNat, rfl, rfl, rfl, rfl, rfl, rfl⟩
  · interval_cases no <;> rfl

/-- Settles O45: PHASE and OUT_VALID are all that the results wait for. -/
theorem resultsAfterHalt : Obligations.ResultsAfterHalt := by
  unfold Obligations.ResultsAfterHalt
  intro s hphase hvalid
  exact if_pos ⟨hphase, hvalid⟩

/-! The step on a decoded instruction. -/

/-- A packed word that decodes to `i` is what `instrAt` finds (30_encoding.md R69). -/
theorem State.instrAt_of_packed {s : State} {W : Widths} {pos w : Nat} {i : Instr} (hW : s.params.widths = some W)
    (hw : Memory.read s.store pos = some (.packed w)) (hd : decode W w = .instr i) : s.instrAt pos = some i := by
  simp [State.instrAt, State.fetch_of_packed (s := s.setPc pos) hW hw, hd]

theorem State.fetch_of_record {s : State} {op : Option Opcode} {f : Fields} (hW : s.params.widths = none)
    (hw : Memory.read s.store s.pc = some (.record op f)) :
    s.fetch = some ⟨Config.recordWord f, decodeRecord op f⟩ := by
  simp only [State.fetch, hW, hw]

/-- A record of `ABS` is the instruction it names (30_encoding.md R61). -/
theorem State.instrAt_of_record {s : State} {pos : Nat} {i : Instr} (hW : s.params.widths = none)
    (hw : Memory.read s.store pos = some (.record (some i.opcode) i.fields)) : s.instrAt pos = some i := by
  simp [State.instrAt, State.fetch_of_record (s := s.setPc pos) hW hw, decodeRecord]

/-- Settles O28: in either form the word at PC is what `instrAt` finds there, and exec always answers. -/
theorem stepRunsDecoded : Obligations.StepRunsDecoded := by
  unfold Obligations.StepRunsDecoded
  intro s i hr hp hword
  have hi : s.instrAt s.pc = some i := by
    rcases hword with ⟨W, w, hW, hw, hd⟩ | ⟨hW, hw⟩
    · exact State.instrAt_of_packed hW hw hd
    · exact State.instrAt_of_record hW hw
  obtain ⟨t, hexec, -⟩ := exec_effect i s.afterQuiet.emit
  exact ⟨t, hexec, step_of_instrAt hr hp hi hexec⟩

/-! No step taken. -/

theorem State.blockStep_of_not_run {s : State} (h : s.phase ≠ .run) : s.blockStep = .next s := by
  unfold State.blockStep
  cases hp : s.phase with
  | run => exact absurd hp h
  | idle => rfl
  | halted => rfl

/-- Settles O33: outside RUN the block's own step is none. -/
theorem idleAndHaltedHold : Obligations.IdleAndHaltedHold := by
  unfold Obligations.IdleAndHaltedHold
  intro s hq hp
  rw [step_of_quiet hq, State.blockStep_of_not_run (s := s.afterQuiet) hp]

theorem step_of_start_in_run {s : State} {l : Launch} {rest : List HostEvent} (h : s.host = .start l :: rest)
    (hp : s.phase = .run) : step s = .next (s.withHost rest) := by
  simp only [step, State.transition, h, State.pulseStart, State.withHost_phase, hp]

/-- Settles O40: the pulse takes the host's action and nothing else. -/
theorem startIgnoredInRun : Obligations.StartIgnoredInRun := by
  unfold Obligations.StartIgnoredInRun
  intro s l rest hstart hp
  rw [step_of_start_in_run hstart hp]
  rfl

end Sys2Proof.Machine
end

section
/-! PROOFS of the start sequence's ends (40_startup_and_step_fsm.md R81 to R86): the launches that are refused, the
state a failed start leaves, and the labels the Loader enters. -/

namespace Sys2Proof.Machine

/-! Launches outside the contract. -/

theorem State.acceptStart_of_off_ports {s : State} {l : Launch} (h : l.onPorts s.params = false) :
    s.acceptStart l = .refused .launchOffPorts := by
  simp [State.acceptStart, h]

theorem State.acceptStart_of_count {s : State} {l : Launch} (hports : l.onPorts s.params = true)
    (h : l.inputs.length ≠ l.n) : s.acceptStart l = .refused (.inputCountMismatch l.inputs.length l.n) := by
  simp [State.acceptStart, hports, h]

theorem State.acceptStart_of_short {s : State} {l : Launch} (hports : l.onPorts s.params = true)
    (hcount : l.inputs.length = l.n) (hconfig : configFailure s.params l = none)
    (hinputs : firstBadInput l.k 1 l.inputs = none) (h : l.program.length < l.progLen) :
    s.acceptStart l = .refused (.programStoreShort l.program.length l.progLen) := by
  simp [State.acceptStart, hports, hcount, hconfig, hinputs, h]

/-- Settles O41: each refusal where the checks before it pass. -/
theorem outOfContractLaunchesRefused : Obligations.OutOfContractLaunchesRefused := by
  unfold Obligations.OutOfContractLaunchesRefused
  intro s l rest hstart hp
  rw [step_of_start hstart hp]
  refine ⟨fun hoff => State.acceptStart_of_off_ports hoff, fun hports hne => State.acceptStart_of_count hports hne,
    fun hports hcount hconfig hinputs hshort => ?_⟩
  exact State.acceptStart_of_short hports hcount (configFailure_of_ok hconfig) (firstBadInput_none.mpr hinputs) hshort

/-! A start that fails. -/

/-- The causes a start can fail with (10_state.md R36). -/
def StartFailure (c : Cause) : Prop := c = .configError ∨ c = .alphabetError ∨ c = .duplicateLabelError

/-- The Loader's end is a run, or the halt for a repeated label. -/
theorem State.loadAndSeed_phase (s : State) (l : Launch) :
    (s.loadAndSeed l).phase = .run ∨ StartFailure (s.loadAndSeed l).cause := by
  unfold State.loadAndSeed
  cases loadLabels s.params s.store 1 s.progLen [] with
  | indexed ix => exact .inl rfl
  | duplicate label first second ix => exact .inr (.inr (.inr rfl))

theorem State.acceptStart_of_configFailure {s : State} {l : Launch} {code reg : Nat}
    (hports : l.onPorts s.params = true) (hcount : l.inputs.length = l.n)
    (hconfig : configFailure s.params l = some (code, reg)) :
    s.acceptStart l = .next ((s.latchLaunch l).raiseHalt (.config code reg)) := by
  simp [State.acceptStart, hports, hcount, hconfig]

theorem State.acceptStart_of_badInput {s : State} {l : Launch} {reg index a : Nat} (hports : l.onPorts s.params = true)
    (hcount : l.inputs.length = l.n) (hconfig : configFailure s.params l = none)
    (hinputs : firstBadInput l.k 1 l.inputs = some (reg, index, a)) :
    s.acceptStart l = .next ((s.latchLaunch l).raiseHalt (.alphabetInput reg index a)) := by
  simp [State.acceptStart, hports, hcount, hconfig, hinputs]

/-- Every way an accepted start can end: a next state, which is in RUN or has failed with one of the three causes, or
one of three refusals. -/
theorem State.acceptStart_answers (s : State) (l : Launch) :
    (∃ t, s.acceptStart l = .next t ∧ (t.phase = .run ∨ StartFailure t.cause)) ∨
      (l.onPorts s.params = false ∧ s.acceptStart l = .refused .launchOffPorts) ∨
      (l.inputs.length ≠ l.n ∧ s.acceptStart l = .refused (.inputCountMismatch l.inputs.length l.n)) ∨
      (l.program.length < l.progLen ∧
        s.acceptStart l = .refused (.programStoreShort l.program.length l.progLen)) := by
  cases hports : l.onPorts s.params with
  | false => exact .inr (.inl ⟨rfl, State.acceptStart_of_off_ports hports⟩)
  | true =>
    by_cases hcount : l.inputs.length = l.n
    · cases hconfig : configFailure s.params l with
      | some e => exact .inl ⟨_, State.acceptStart_of_configFailure hports hcount hconfig, .inr (.inl rfl)⟩
      | none =>
        cases hinputs : firstBadInput l.k 1 l.inputs with
        | some e => exact .inl ⟨_, State.acceptStart_of_badInput hports hcount hconfig hinputs, .inr (.inr (.inl rfl))⟩
        | none =>
          by_cases hshort : l.program.length < l.progLen
          · exact .inr (.inr (.inr ⟨hshort, State.acceptStart_of_short hports hcount hconfig hinputs hshort⟩))
          · exact .inl ⟨_, State.acceptStart_of_checks hports hcount (configOk_of_none hconfig)
              (firstBadInput_none.mp hinputs) (Nat.le_of_not_lt hshort), State.loadAndSeed_phase _ l⟩
    · exact .inr (.inr (.inl ⟨hcount, State.acceptStart_of_count hports hcount⟩))

theorem State.acceptStart_phase {s t : State} {l : Launch} (h : s.acceptStart l = .next t) :
    t.phase = .run ∨ StartFailure t.cause := by
  rcases s.acceptStart_answers l with ⟨t', he, hend⟩ | ⟨-, he⟩ | ⟨-, he⟩ | ⟨-, he⟩ <;> cases he.symm.trans h
  exact hend

/-- Settles O38: a start that left PHASE HALTED raised its halt on the latched state, whatever the Loader listed. -/
theorem failedStartState : Obligations.FailedStartState := by
  unfold Obligations.FailedStartState
  rintro s t l rest ⟨hhost, hphase, -, -⟩ hstep hhalted
  rw [step_of_start hhost hphase] at hstep
  have hcause : StartFailure t.cause := by
    rcases State.acceptStart_phase hstep with hrun | hcause
    · rw [hrun] at hhalted; cases hhalted
    · exact hcause
  obtain ⟨-, -, hstarted⟩ := State.acceptStart_started hstep
  refine ⟨hcause, ?_⟩
  cases hstarted with
  | fails h notLimit ix sorted inProgram => exact ⟨rfl, rfl, rfl, rfl, rfl, rfl, rfl, rfl, rfl, rfl⟩
  | runs config inputs count held ix sorted index => cases hhalted

/-! The labels. -/

theorem labelAt_of_packed {q : Params} {m : Memory} {W : Widths} {pos w : Nat} (hW : q.widths = some W)
    (hw : Memory.read m pos = some (.packed w)) : labelAt q m pos = wordLabel W w := by
  simp [labelAt, hw, storeLabel, hW]

theorem labelAt_of_record {q : Params} {m : Memory} {pos : Nat} {op : Option Opcode} {f : Fields}
    (hW : q.widths = none) (hw : Memory.read m pos = some (.record op f)) : labelAt q m pos = f.label := by
  simp [labelAt, hw, storeLabel, hW]

theorem wordLabel_eq_some_iff (W : Widths) (w lab : Nat) :
    wordLabel W w = some lab ↔ bitField w W.lvLo 1 = 1 ∧ bitField w W.labelLo W.lblW = lab := by
  simp [wordLabel]

/-- The label of a store location in the form its block reads: of a packed word by LV and LABEL, of a record by its
label (30_encoding.md R72). -/
theorem storeLabel_eq_some_iff (q : Params) (c : StoreWord) (lab : Nat) :
    storeLabel q c = some lab ↔
      (∃ W w, q.widths = some W ∧ c = .packed w ∧ bitField w W.lvLo 1 = 1 ∧ bitField w W.labelLo W.lblW = lab) ∨
        ∃ op f, q.widths = none ∧ c = .record op f ∧ f.label = some lab := by
  cases c with
  | packed w => cases hq : q.widths <;> simp [storeLabel, hq, wordLabel_eq_some_iff]
  | record op f => cases hq : q.widths <;> simp [storeLabel, hq]

/-- The label declared at a position of the program is that of the position's word in the launch. -/
theorem Launch.labelAt_eq_some_iff (q : Params) (l : Launch) {pos : Nat} (hpos : 1 ≤ pos) (lab : Nat) :
    l.labelAt q pos = some lab ↔ ∃ c, l.program[pos - 1]? = some c ∧ storeLabel q c = some lab := by
  simp [Launch.labelAt, Machine.labelAt, Memory.read_ofProgram, hpos, Option.bind_eq_some_iff]

/-- The index a start leaves in RUN is the exact index of the launch's program (10_state.md R22). -/
theorem Started.index_exact {l : Launch} {s t : State} (h : Started l s t) (hrun : t.phase = .run) (lab pos : Nat) :
    Table.get t.lidx lab = some pos ↔ 1 ≤ pos ∧ pos ≤ l.progLen ∧ l.labelAt s.params pos = some lab := by
  cases h with
  | fails c notLimit ix sorted inProgram => cases hrun
  | runs config inputs count held ix sorted index =>
    rw [State.seed_lidx, index.get_iff, Nat.add_comm, Nat.lt_succ_iff, Launch.labelAt]

/-- Settles O60: what a position declares, by its form; that the index left by a start in RUN is the exact one; and the
halt of an illegal record, by the same lemma as that of an illegal word. -/
theorem loaderReadsEveryLabel : Obligations.LoaderReadsEveryLabel := by
  unfold Obligations.LoaderReadsEveryLabel
  intro s
  refine ⟨fun pos W w hW hw => labelAt_of_packed hW hw, fun pos op f hW hw => labelAt_of_record hW hw, ?_, ?_⟩
  · rintro l rest t ⟨hhost, hphase, -, -⟩ hstep hrun lab pos
    rw [step_of_start hhost hphase] at hstep
    obtain ⟨-, -, hstarted⟩ := State.acceptStart_started hstep
    rw [hstarted.index_exact hrun]
    refine and_congr_right fun hpos => and_congr_right fun _ => ?_
    rw [Launch.labelAt_eq_some_iff _ _ hpos]
    simp only [storeLabel_eq_some_iff, State.withHost_params]
    constructor
    · rintro ⟨c, hc, ⟨W, w, hW, rfl, hlv, hlab⟩ | ⟨op, f, hW, rfl, hlab⟩⟩
      · exact .inl ⟨W, w, hW, hc, hlv, hlab⟩
      · exact .inr ⟨op, f, hW, hc, hlab⟩
    · rintro (⟨W, w, hW, hc, hlv, hlab⟩ | ⟨op, f, hW, hc, hlab⟩)
      · exact ⟨_, hc, .inl ⟨W, w, hW, rfl, hlv, hlab⟩⟩
      · exact ⟨_, hc, .inr ⟨op, f, hW, rfl, hlab⟩⟩
  · intro f hW hr hp hw
    exact ⟨_, step_of_illegal hr hp (State.fetch_of_record hW hw)⟩

end Sys2Proof.Machine
end

section
/-! PROOFS of the invariants (10_state.md): what a step of a run comes to, one lemma that splits a transition into its
kinds, each invariant kept by a step of a run and met after a start, and all of them together. -/

namespace Sys2Proof.Machine

/-! What a step of a run comes to. -/

/-- Why a step ends a run before it is counted: PC has left the program, there is no instruction at PC, or the
instruction raised a halt of its own. -/
inductive Ended (s : State) : Halt → Prop
  | leaves : Ended s (.pcOutOfRange s.pc s.progLen)
  | illegal (word : Nat) (inRange : PcInRange s) (noInstr : s.instrAt s.pc = none) :
      Ended s (.illegalInstruction s.pc word)
  | raised (i : Instr) (c : Halt) (inRange : PcInRange s) (fetched : s.instrAt s.pc = some i)
      (raised : InstrHalt i s.emit c) : Ended s c

theorem Ended.notLimit {s : State} {c : Halt} (h : Ended s c) : c.cause ≠ .stepLimitExceededError := by
  cases h with
  | leaves => simp [Halt.cause]
  | illegal word inRange noInstr => simp [Halt.cause]
  | raised i c inRange fetched raised => exact raised.notLimit

/-- An instruction at PC that completed, on the state with the snapshot: it left PHASE, CAUSE and INFO. -/
structure Completed (s u : State) : Prop where
  inRange : PcInRange s
  instr : ∃ i, s.instrAt s.pc = some i ∧ Effect i s.emit u
  same : SameStatus s u

/-- What a step of a run comes to: a count within the limit, the limit passed, or a halt that is not counted
(40_startup_and_step_fsm.md R92 to R96). -/
inductive StepResult (s : State) : State → Prop
  | counted (u : State) (done : Completed s u) (within : s.stepcnt + 1 ≤ s.maxSteps) : StepResult s u.countUp
  | limited (u : State) (done : Completed s u) (passed : s.maxSteps < s.stepcnt + 1) :
      StepResult s (u.countUp.raiseHalt (.stepLimitExceeded (s.stepcnt + 1) s.maxSteps))
  | ended (c : Halt) (why : Ended s c) : StepResult s (s.emit.raiseHalt c)

theorem Completed.untouched {s u : State} (h : Completed s u) : UntouchedByInstr s.emit u := by
  obtain ⟨i, -, heffect⟩ := h.instr
  exact heffect.untouched

theorem Completed.store_eq {s u : State} (h : Completed s u) : u.store = s.store := by
  obtain ⟨i, -, heffect⟩ := h.instr
  exact heffect.store_eq

theorem Stepped.result {s t : State} (h : Stepped s t) (hrun : s.phase = .run) : StepResult s t := by
  cases h with
  | leaves outside => exact .ended _ .leaves
  | illegal word inRange noInstr => exact .ended _ (.illegal word inRange noInstr)
  | runs i u inRange fetched executed effect =>
    rcases effect.status with hsame | ⟨c, hraised, rfl⟩
    · have hdone : Completed s u := ⟨inRange, ⟨i, fetched, effect⟩, hsame⟩
      have hcnt : u.stepcnt = s.stepcnt := hdone.untouched.stepcnt
      have hmax : u.maxSteps = s.maxSteps := hdone.untouched.maxSteps
      rcases State.countStep_of_run (hsame.1.trans hrun) with ⟨hle, he⟩ | ⟨hlt, he⟩ <;> rw [he]
      · exact .counted u hdone (by omega)
      · rw [hcnt, hmax]
        exact .limited u hdone (by omega)
    · rw [State.countStep_of_halted (State.raiseHalt_phase _ _)]
      exact .ended c (.raised i c inRange fetched hraised)

/-! PC. -/

/-- An instruction that completed moved PC to a position that may follow (42_jumps.md R121). -/
theorem Completed.follows {s u : State} (h : Completed s u) (hrun : s.phase = .run) : Follows s s.pc u.pc := by
  obtain ⟨i, hi, heffect⟩ := h.instr
  have hphase : u.phase = .run := h.same.1.trans hrun
  cases heffect with
  | halts c raised => cases hphase
  | writes r v dest inBank value => exact .inl (by simp)
  | falls dest => exact .inl rfl
  | jumps pos dest target dir => exact .inr ⟨i, hi, target, dir⟩

/-- What a step of a run does to PC: nothing when it ends the run uncounted, else it goes to a position that may
follow. -/
theorem StepResult.pc_cases {s t : State} (h : StepResult s t) (hrun : s.phase = .run) :
    (t.pc = s.pc ∧ t.phase = .halted) ∨ (PcInRange s ∧ Follows s s.pc t.pc) := by
  cases h with
  | counted u done within => exact .inr ⟨done.inRange, done.follows hrun⟩
  | limited u done passed => exact .inr ⟨done.inRange, done.follows hrun⟩
  | ended c why => exact .inl ⟨rfl, rfl⟩

/-- The run goes on, or it is HALTED. -/
theorem StepResult.phase_cases {s t : State} (h : StepResult s t) (hrun : s.phase = .run) :
    t.phase = .run ∨ t.phase = .halted := by
  cases h with
  | counted u done within => exact .inl (done.same.1.trans hrun)
  | limited u done passed => exact .inr rfl
  | ended c why => exact .inr rfl

/-! The kinds of a transition. -/

/-- A property of the next state, by the kinds of a transition: a step of a run, an accepted start, a reset, and the
two kinds that only take the host's action. -/
theorem of_step {P : State → Prop} {s t : State} (h : step s = .next t)
    (holds : ∀ rest, P (s.withHost rest)) (stepped : s.phase = .run → Stepped s.afterQuiet t → P t)
    (started : ∀ rest l, StartPending s l rest → Started l (s.withHost rest) t → P t)
    (reset : ∀ rest, s.host = .reset :: rest → P (s.withHost rest).assertReset) : P t := by
  cases step_transitioned h with
  | stepped t running step => exact stepped running.1 step
  | holds quiet notRun => exact holds _
  | started rest l t pending start => exact started rest l pending start
  | ignored rest l pending inRun => exact holds rest
  | reset rest pending => exact reset rest pending

/-- No transition writes the parameters. -/
theorem Started.params_eq {l : Launch} {s t : State} (h : Started l s t) : t.params = s.params := by
  cases h <;> rfl

theorem step_params {s t : State} (h : step s = .next t) : t.params = s.params := by
  refine of_step (P := fun t => t.params = s.params) h (fun _ => rfl) (fun _ hstep => ?_)
    (fun _ _ _ hstart => hstart.params_eq) (fun _ _ => rfl)
  obtain ⟨hparams, -⟩ := hstep.untouched
  exact hparams

/-- Settles O46: a step of a run writes none of these, and in RUN no start is accepted. -/
theorem runConstants : Obligations.RunConstants := by
  unfold Obligations.RunConstants
  intro s t hrun hnoreset h
  cases step_transitioned h with
  | stepped t running step =>
    obtain ⟨hparams, hn, hp, hk, hmax, hlen, hlidx, hvalid, hstore, -, -⟩ := step.untouched
    exact ⟨hparams, hn, hp, hk, hmax, hlen, hlidx, hvalid, fun pos => by rw [hstore]; rfl⟩
  | holds quiet notRun => exact absurd hrun notRun
  | started rest l t pending start =>
    obtain ⟨-, hphase, -, -⟩ := pending
    exact absurd hrun hphase
  | ignored rest l pending inRun => exact ⟨rfl, rfl, rfl, rfl, rfl, rfl, rfl, rfl, fun _ => rfl⟩
  | reset rest pending => exact absurd pending (hnoreset rest)

/-! The canonical form of the store and of LIDX. -/

theorem Stepped.storageCanonical {s t : State} (h : Stepped s t) (hs : StorageCanonical s) : StorageCanonical t := by
  obtain ⟨-, -, -, -, -, -, hlidx, -, hstore, -, -⟩ := h.untouched
  rw [StorageCanonical, hstore, hlidx]
  exact hs

theorem Started.storageCanonical {l : Launch} {s t : State} (h : Started l s t) : StorageCanonical t := by
  cases h with
  | fails c notLimit ix sorted inProgram => exact ⟨Memory.wf_ofProgram _, (Lidx.wf_iff _).mpr sorted⟩
  | runs config inputs count held ix sorted index => exact ⟨Memory.wf_ofProgram _, (Lidx.wf_iff _).mpr sorted⟩

/-- Settles O47: a run writes neither; a start places the program and loads the index in this form; reset empties LIDX
and keeps the store. -/
theorem stepKeepsCanonicalStorage : Obligations.StepKeepsCanonicalStorage := by
  unfold Obligations.StepKeepsCanonicalStorage
  intro s t hs h
  exact of_step h (fun _ => hs) (fun _ hstep => hstep.storageCanonical hs) (fun _ _ _ hstart => hstart.storageCanonical)
    (fun _ _ => ⟨hs.1, rfl⟩)

/-! The bank. -/

/-- A register's value is in order: symbols only, and within CAP (10_state.md R11, R15). -/
def GoodReg (q : Params) (k : Nat) (v : Seq) : Prop :=
  (∀ a ∈ v, 1 ≤ a ∧ a ≤ k) ∧ ∀ cap, q.cap = some cap → v.length ≤ cap

theorem goodRegs_iff (s : State) :
    (∀ v ∈ s.bank, GoodReg s.params s.k v) ↔ SymbolsOnly s ∧ WithinCap s := by
  constructor
  · intro h
    exact ⟨fun v hv => (h v hv).1, fun cap hcap v hv => (h v hv).2 cap hcap⟩
  · rintro ⟨hsym, hcap⟩ v hv
    exact ⟨hsym v hv, fun cap hc => hcap cap hc v hv⟩

theorem GoodReg.nil (q : Params) (k : Nat) : GoodReg q k [] := ⟨by simp, by simp⟩

/-- The value an instruction writes is in order when all registers are: ADD appends a symbol where there is room, TAIL
leaves a part, CLR leaves nothing and ASSIGN leaves a register's own value. -/
theorem Written.goodReg {s : State} {v : Seq} (h : Written s v) (hs : ∀ v ∈ s.bank, GoodReg s.params s.k v) :
    GoodReg s.params s.k v := by
  have hread : ∀ r, GoodReg s.params s.k (s.readReg r) := State.forall_readReg hs (GoodReg.nil _ _)
  cases h with
  | appended r j sym room =>
    refine ⟨fun a ha => ?_, fun cap hcap => ?_⟩
    · rcases List.mem_append.mp ha with ha | ha
      · exact (hread r).1 a ha
      · rw [List.mem_singleton.mp ha]; exact sym
    · have := (atCapacity_eq_false_iff _ _).mp room cap hcap
      rw [seqAppend, List.length_append, List.length_singleton]
      omega
  | popped r =>
    refine ⟨fun a ha => (hread r).1 a (List.mem_of_mem_drop ha), fun cap hcap => ?_⟩
    exact ((List.drop_sublist 1 _).length_le).trans ((hread r).2 cap hcap)
  | cleared => exact GoodReg.nil _ _
  | copied r => exact hread r

theorem Effect.goodRegs {i : Instr} {s t : State} (h : Effect i s t) (hs : ∀ v ∈ s.bank, GoodReg s.params s.k v) :
    ∀ v ∈ t.bank, GoodReg s.params s.k v := by
  cases h with
  | halts c raised => exact hs
  | writes r v dest inBank value => exact State.forall_writeReg hs (value.goodReg hs)
  | falls dest => exact hs
  | jumps pos dest target dir => exact hs

theorem Stepped.goodRegs {s t : State} (h : Stepped s t) (hs : ∀ v ∈ s.bank, GoodReg s.params s.k v) :
    ∀ v ∈ t.bank, GoodReg t.params t.k v := by
  obtain ⟨hparams, -, -, hk, -⟩ := h.untouched
  rw [hparams, hk]
  cases h with
  | leaves outside => exact hs
  | illegal word inRange noInstr => exact hs
  | runs i u inRange fetched executed effect =>
    obtain ⟨-, -, -, -, -, -, -, -, -, hbank, -⟩ := u.countStep_untouched
    rw [hbank]
    exact effect.goodRegs hs

theorem Stepped.bankSized {s t : State} (h : Stepped s t) (hs : BankSized s) : BankSized t := by
  obtain ⟨-, -, hp, -⟩ := h.untouched
  rw [BankSized, hp, ← hs]
  cases h with
  | leaves outside => rfl
  | illegal word inRange noInstr => rfl
  | runs i u inRange fetched executed effect =>
    obtain ⟨-, -, -, -, -, -, -, -, -, hbank, -⟩ := u.countStep_untouched
    rw [hbank]
    exact effect.bank_length

/-- After a start every register is empty or holds an input, and the inputs have passed the checks. -/
theorem Started.goodRegs {l : Launch} {s t : State} (h : Started l s t) :
    ∀ v ∈ t.bank, GoodReg t.params t.k v := by
  cases h with
  | fails c notLimit ix sorted inProgram =>
    intro v hv
    rw [List.eq_of_mem_replicate hv]
    exact GoodReg.nil _ _
  | runs config inputs count held ix sorted index =>
    obtain ⟨-, -, -, -, hcaps⟩ := configOk_of_none config
    intro v hv
    rcases mem_seedBank hv with hv | rfl
    · exact ⟨firstBadInput_none.mp inputs v hv, fun cap hcap => hcaps cap hcap v hv⟩
    · exact GoodReg.nil _ _

theorem Started.bankSized {l : Launch} {s t : State} (h : Started l s t) : BankSized t := by
  cases h with
  | fails c notLimit ix sorted inProgram => exact List.length_replicate
  | runs config inputs count held ix sorted index =>
    obtain ⟨-, hn, -⟩ := configOk_of_none config
    exact seedBank_length (count ▸ hn)

/-- Settles O48: the value an instruction writes is in order, and so is what a start seeds. -/
theorem stepKeepsSymbols : Obligations.StepKeepsSymbols := by
  unfold Obligations.StepKeepsSymbols
  rintro s t ⟨hsized, hgood⟩ h
  rw [← goodRegs_iff] at hgood ⊢
  refine of_step (P := fun t => BankSized t ∧ ∀ v ∈ t.bank, GoodReg t.params t.k v) h (fun _ => ⟨hsized, hgood⟩)
    (fun _ hstep => ⟨hstep.bankSized hsized, hstep.goodRegs hgood⟩)
    (fun _ _ _ hstart => ⟨hstart.bankSized, hstart.goodRegs⟩) (fun _ _ => ⟨rfl, fun v hv => ?_⟩)
  cases hv

/-! PC in the program. -/

theorem Follows.inProgram {s : State} {b : Nat} (h : Follows s s.pc b) (hr : PcInRange s) (hs : PcInProgram s) :
    1 ≤ b ∧ b ≤ s.progLen + 1 := by
  obtain ⟨hlo, hhi⟩ := hr
  obtain ⟨-, -, htargets⟩ := hs
  rcases h with rfl | ⟨i, -, htarget, -⟩
  · omega
  · have := htargets _ _ htarget
    omega

theorem Stepped.pcInProgram {s t : State} (h : Stepped s t) (hrun : s.phase = .run) (hs : PcInProgram s) :
    PcInProgram t := by
  obtain ⟨-, -, -, -, -, hlen, hlidx, -⟩ := h.untouched
  obtain ⟨hlo, hhi, htargets⟩ := id hs
  rw [PcInProgram, hlen, hlidx, ← and_assoc]
  refine ⟨?_, htargets⟩
  rcases (h.result hrun).pc_cases hrun with ⟨hpc, -⟩ | ⟨hr, hfollows⟩
  · rw [hpc]; exact ⟨hlo, hhi⟩
  · exact hfollows.inProgram hr hs

theorem Started.pcInProgram {l : Launch} {s t : State} (h : Started l s t) : PcInProgram t := by
  cases h with
  | fails c notLimit ix sorted inProgram => exact ⟨Nat.le_refl 1, by simp, inProgram⟩
  | runs config inputs count held ix sorted index =>
    refine ⟨Nat.le_refl 1, by simp, fun lab pos hget => ?_⟩
    obtain ⟨hlo, hhi, -⟩ := index.sound lab pos hget
    exact ⟨hlo, by simp; omega⟩

/-- Settles O49: from a position of the program PC goes to the next or to a listed target. -/
theorem stepKeepsPcInProgram : Obligations.StepKeepsPcInProgram := by
  unfold Obligations.StepKeepsPcInProgram
  intro s t hs h
  refine of_step h (fun _ => hs) (fun hrun hstep => hstep.pcInProgram hrun hs) (fun _ _ _ hstart => hstart.pcInProgram)
    (fun _ _ => ⟨Nat.le_refl 1, Nat.le_refl 1, fun lab pos hget => ?_⟩)
  cases hget

/-! PHASE, CAUSE, INFO, OUT_VALID, STEPCNT and the length of TRACE. -/

/-- The three agree (10_state.md R19, R20, R25 to R28). -/
structure CountsAgree (s : State) : Prop where
  status : StatusAgrees s
  count : CountInLimit s
  traceCounted : TraceCounted s

/-- What the three say of a run: no cause and no INFO yet, OUT_VALID set, the limit not passed, and one snapshot for
each counted step. -/
theorem countsAgree_iff_of_run {s : State} (hrun : s.phase = .run) :
    CountsAgree s ↔ s.cause = .none ∧ s.info = Info.zero ∧ s.outValid = true ∧ s.stepcnt ≤ s.maxSteps ∧
      s.trace.length = s.stepcnt := by
  constructor
  · rintro ⟨⟨hcause, hinfo, hvalid, -⟩, ⟨hle, hlimit⟩, htrace⟩
    have hnone : s.cause = .none := hcause.mpr (by simp [hrun])
    have hne : s.stepcnt ≠ s.maxSteps + 1 := fun e => by simpa [hnone] using hlimit.mp e
    simp only [TraceCounted, hrun] at htrace
    exact ⟨hnone, hinfo (by simp [hrun]), hvalid hrun, by omega, htrace⟩
  · rintro ⟨hcause, hinfo, hvalid, hle, htrace⟩
    have hne : s.stepcnt ≠ s.maxSteps + 1 := by omega
    refine ⟨⟨by simp [hcause, hrun], fun _ => hinfo, fun _ => hvalid, by simp [hrun]⟩,
      ⟨by omega, by simp [hcause, hne]⟩, ?_⟩
    simpa only [TraceCounted, hrun] using htrace

/-- What the three say of a run that has ended after it was seeded. -/
theorem countsAgree_of_halted {s : State} {c : Halt} (hphase : s.phase = .halted) (hcause : s.cause = c.cause)
    (hvalid : s.outValid = true) (hcount : CountInLimit s)
    (htrace : s.trace.length = if c.cause = .stepLimitExceededError then s.stepcnt else s.stepcnt + 1) :
    CountsAgree s := by
  refine ⟨⟨by simp [hcause, hphase, c.cause_ne_none], by simp [hphase], by simp [hphase], by simp [hphase]⟩, hcount, ?_⟩
  simp only [TraceCounted, hphase, hvalid, hcause, Bool.true_eq_false, if_false]
  split
  · rwa [if_pos (by assumption)] at htrace
  · rwa [if_neg (by assumption)] at htrace

theorem Stepped.countsAgree {s t : State} (h : Stepped s t) (hrun : s.phase = .run) (hs : CountsAgree s) :
    CountsAgree t := by
  obtain ⟨hcause, hinfo, hvalid, hle, htrace⟩ := (countsAgree_iff_of_run hrun).mp hs
  cases h.result hrun with
  | counted u done within =>
    obtain ⟨hphase', hcause', hinfo'⟩ := done.same
    have hu := done.untouched
    refine (countsAgree_iff_of_run (s := u.countUp) (hphase'.trans hrun)).mpr
      ⟨hcause'.trans hcause, hinfo'.trans hinfo, hu.outValid.trans hvalid, ?_, ?_⟩
    · simpa [hu.stepcnt, hu.maxSteps] using within
    · simp [hu.trace, hu.stepcnt, htrace]
  | limited u done passed =>
    have hu := done.untouched
    have hmax : s.stepcnt = s.maxSteps := by omega
    refine countsAgree_of_halted (c := .stepLimitExceeded (s.stepcnt + 1) s.maxSteps) rfl rfl
      (hu.outValid.trans hvalid) ⟨?_, ?_⟩ ?_
    · simp [hu.stepcnt, hu.maxSteps, hmax]
    · simp [hu.stepcnt, hu.maxSteps, hmax, Halt.cause]
    · simp [hu.trace, hu.stepcnt, htrace, Halt.cause]
  | ended c why =>
    refine countsAgree_of_halted (c := c) rfl rfl hvalid ⟨?_, ?_⟩ ?_
    · simp; omega
    · simp [why.notLimit]; omega
    · simp [why.notLimit, htrace]

theorem Started.countsAgree {l : Launch} {s t : State} (h : Started l s t) : CountsAgree t := by
  cases h with
  | fails c notLimit ix sorted inProgram =>
    refine ⟨⟨by simp [c.cause_ne_none], by simp, by simp, by simp⟩, ⟨by simp, by simp [notLimit]⟩, ?_⟩
    simp [TraceCounted]
  | runs config inputs count held ix sorted index =>
    exact (countsAgree_iff_of_run rfl).mpr ⟨rfl, rfl, rfl, Nat.zero_le _, rfl⟩

theorem State.countsAgree_afterReset (q : Params) (store : Memory) (host : List HostEvent) :
    CountsAgree (State.afterReset q store host) :=
  ⟨⟨by simp [State.afterReset], fun _ => rfl, by simp [State.afterReset], fun _ => rfl⟩,
    ⟨by simp [State.afterReset], by simp [State.afterReset]⟩, ⟨rfl, rfl⟩⟩

/-- Settles O50: a step of a run counts, passes the limit, or ends the run uncounted, and each adds one snapshot. -/
theorem stepKeepsStatusAndCounts : Obligations.StepKeepsStatusAndCounts := by
  unfold Obligations.StepKeepsStatusAndCounts
  rintro s t ⟨hstatus, hcount, htrace⟩ h
  have hs : CountsAgree s := ⟨hstatus, hcount, htrace⟩
  have ht : CountsAgree t := of_step h (fun _ => ⟨hstatus, hcount, htrace⟩)
    (fun hrun hstep => hstep.countsAgree hrun ⟨hstatus, hcount, htrace⟩) (fun _ _ _ hstart => hstart.countsAgree)
    (fun _ _ => State.countsAgree_afterReset _ _ _)
  exact ⟨ht.status, ht.count, ht.traceCounted⟩

/-! The index and the store of a seeded run. -/

theorem Stepped.indexExact {s t : State} (h : Stepped s t) (hs : IndexExact s ∧ StoreFilled s) :
    IndexExact t ∧ StoreFilled t := by
  obtain ⟨hparams, -, -, -, -, hlen, hlidx, hvalid, hstore, -, -⟩ := h.untouched
  rw [IndexExact, StoreFilled, hparams, hlen, hlidx, hvalid, hstore]
  exact hs

/-- Nothing is said before a run is seeded. -/
theorem indexExact_of_not_valid {s : State} (h : s.outValid = false) : IndexExact s ∧ StoreFilled s := by
  simp [IndexExact, StoreFilled, h]

/-- A start that fails leaves OUT_VALID 0. One that runs has loaded the exact index, and the launch carried a word of
the right form for every position. -/
theorem Started.indexExact {l : Launch} {s t : State} (h : Started l s t) (hports : l.onPorts s.params = true) :
    IndexExact t ∧ StoreFilled t := by
  cases h with
  | fails c notLimit ix sorted inProgram => exact indexExact_of_not_valid rfl
  | runs config inputs count held ix sorted index =>
    refine ⟨fun _ lab pos => ?_, fun _ pos hlo hhi => ?_⟩
    · rw [State.seed_lidx, index.get_iff, Nat.add_comm, Nat.lt_succ_iff]
      rfl
    · have hlt : pos - 1 < l.program.length := by
        have hle : pos ≤ l.progLen := hhi
        omega
      have hwords : ∀ c ∈ l.program, c.wf s.params = true := by
        rw [Launch.onPorts, Bool.and_eq_true, List.all_eq_true] at hports
        exact hports.1
      refine ⟨l.program[pos - 1], ?_, hwords _ (List.getElem_mem hlt)⟩
      simp [Memory.read_ofProgram, hlo, List.getElem?_eq_getElem hlt]

/-- Settles O51: a run writes neither, and a start that seeds one has met both. -/
theorem stepKeepsIndexExact : Obligations.StepKeepsIndexExact := by
  unfold Obligations.StepKeepsIndexExact
  intro s t hs h
  refine of_step (P := fun t => IndexExact t ∧ StoreFilled t) h (fun _ => hs) (fun _ hstep => hstep.indexExact hs)
    (fun _ _ ⟨_, _, hports, _⟩ hstart => hstart.indexExact hports) (fun _ _ => indexExact_of_not_valid rfl)

end Sys2Proof.Machine
end

section
/-! PROOFS about the machine as a whole: the trace as a replay of the run, the widths of every register, all the
invariants together, and what follows from them: no stop but a refused launch, the end of every run, and no decode fault
of a well-formed program. -/

namespace Sys2Proof.Machine

/-! The trace as a replay. -/

theorem State.instrAt_congr {s t : State} (hparams : t.params = s.params) (hstore : t.store = s.store) (pos : Nat) :
    t.instrAt pos = s.instrAt pos := by
  simp only [State.instrAt, State.fetch, State.setPc_params, State.setPc_store, State.setPc_pc, hparams, hstore]

theorem Follows.congr {s t : State} (hparams : t.params = s.params) (hstore : t.store = s.store)
    (hlidx : t.lidx = s.lidx) {a b : Nat} (h : Follows s a b) : Follows t a b := by
  simp only [Follows, State.instrAt_congr hparams hstore, hlidx]
  exact h

theorem State.pcs_of_run {s : State} (h : s.phase = .run) : s.pcs = s.trace.map Snapshot.pc ++ [s.pc] := by
  simp only [State.pcs, h]

theorem State.pcs_of_halted {s : State} (h : s.phase = .halted) : s.pcs = s.trace.map Snapshot.pc := by
  simp only [State.pcs, h, List.append_nil]

/-- The PCs of the run after a step: the same ones, the last now in TRACE; and where the run goes on, one more that may
follow the last. -/
theorem Stepped.pcs_cases {s t : State} (h : Stepped s t) (hrun : s.phase = .run) :
    t.pcs = s.pcs ∨ (t.pcs = s.pcs ++ [t.pc] ∧ PcInRange s ∧ Follows s s.pc t.pc) := by
  obtain ⟨-, -, -, -, -, -, -, -, -, htrace, -⟩ := h.untouched
  have hmap : t.trace.map Snapshot.pc = s.pcs := by rw [htrace, State.pcs_of_run hrun, List.map_append]; rfl
  rcases (h.result hrun).phase_cases hrun with hphase | hphase
  · rcases (h.result hrun).pc_cases hrun with ⟨-, hhalted⟩ | ⟨hr, hfollows⟩
    · rw [hphase] at hhalted; cases hhalted
    · exact .inr ⟨by rw [State.pcs_of_run hphase, hmap], hr, hfollows⟩
  · exact .inl (by rw [State.pcs_of_halted hphase, hmap])

theorem State.pcs_of_trace_nil {s : State} (h : s.trace = []) : s.pcs = [] ∨ s.pcs = [s.pc] := by
  cases hp : s.phase <;> simp [State.pcs, h, hp]

theorem Started.trace_eq_nil {l : Launch} {s t : State} (h : Started l s t) : t.trace = [] := by
  cases h <;> rfl

/-- Two consecutive entries of a list with one more at its end are consecutive in the list, or its last and the new
one. -/
theorem consecutive_append_singleton {α : Type} {init : List α} {z c a b : α} {i : Nat}
    (ha : (init ++ [z] ++ [c])[i]? = some a) (hb : (init ++ [z] ++ [c])[i + 1]? = some b) :
    ((init ++ [z])[i]? = some a ∧ (init ++ [z])[i + 1]? = some b) ∨ (a = z ∧ b = c) := by
  have hlen : (init ++ [z]).length = init.length + 1 := by simp
  rcases Nat.lt_trichotomy i init.length with hi | rfl | hi
  · rw [List.getElem?_append_left (by omega)] at ha hb
    exact .inl ⟨ha, hb⟩
  · have hz : z = a := by simpa using ha
    have hc : c = b := by simpa using hb
    exact .inr ⟨hz.symm, hc.symm⟩
  · rw [List.getElem?_eq_none (by simp; omega)] at hb
    cases hb

theorem Stepped.traceReplays {s t : State} (h : Stepped s t) (hrun : s.phase = .run) (hs : TraceReplays s) :
    TraceReplays t := by
  obtain ⟨hparams, -, -, -, -, -, hlidx, -, hstore, -, -⟩ := h.untouched
  intro i a b ha hb
  refine Follows.congr hparams hstore hlidx ?_
  rcases h.pcs_cases hrun with hpcs | ⟨hpcs, -, hfollows⟩
  · rw [hpcs] at ha hb
    exact hs i a b ha hb
  · rw [hpcs, State.pcs_of_run hrun] at ha hb
    rcases consecutive_append_singleton ha hb with ⟨ha', hb'⟩ | ⟨rfl, rfl⟩
    · rw [← State.pcs_of_run hrun] at ha' hb'
      exact hs i a b ha' hb'
    · exact hfollows

/-- A run with no snapshot yet has no two PCs. -/
theorem traceReplays_of_trace_nil {s : State} (h : s.trace = []) : TraceReplays s := by
  intro i a b _ hb
  rcases State.pcs_of_trace_nil h with hpcs | hpcs <;> rw [hpcs] at hb <;> simp at hb

/-- Settles O52: a step appends at most one PC, which may follow the last; a start and reset leave TRACE empty. -/
theorem stepKeepsTraceReplay : Obligations.StepKeepsTraceReplay := by
  unfold Obligations.StepKeepsTraceReplay
  intro s t hs h
  exact of_step h (fun _ => hs) (fun hrun hstep => hstep.traceReplays hrun hs)
    (fun _ _ _ hstart => traceReplays_of_trace_nil hstart.trace_eq_nil) (fun _ _ => traceReplays_of_trace_nil rfl)

/-- A position that may follow a position without a backward jump is a later one. -/
theorem Follows.lt_of_forward {s : State} {a b : Nat} (h : Follows s a b)
    (hforward : ∀ i, s.instrAt a = some i → isBackward i = false) : a < b := by
  rcases h with rfl | ⟨i, hi, -, ⟨hback, -⟩ | ⟨-, hlt⟩⟩
  · exact Nat.lt_succ_self a
  · rw [hforward i hi] at hback; cases hback
  · exact hlt

/-- A strictly rising list stays so with a larger entry after its last. -/
theorem pairwise_lt_append_singleton {init : List Nat} {z c : Nat} (h : (init ++ [z]).Pairwise (· < ·)) (hlt : z < c) :
    (init ++ [z] ++ [c]).Pairwise (· < ·) := by
  obtain ⟨-, -, hlast⟩ := List.pairwise_append.mp h
  refine List.pairwise_append.mpr ⟨h, List.pairwise_singleton _ _, fun a ha b hb => ?_⟩
  rw [List.mem_singleton.mp hb]
  rcases List.mem_append.mp ha with ha | ha
  · exact (hlast a ha z (List.mem_singleton_self z)).trans hlt
  · rw [List.mem_singleton.mp ha]; exact hlt

/-- Settles O58: with no backward jump in the program the PC a step appends is above the last. -/
theorem forwardProgramsNeverRepeat : Obligations.ForwardProgramsNeverRepeat := by
  unfold Obligations.ForwardProgramsNeverRepeat
  intro s t hforward hs h
  have hfresh : ∀ {u : State}, u.trace = [] → u.pcs.Pairwise (· < ·) := fun hnil => by
    rcases State.pcs_of_trace_nil hnil with hpcs | hpcs <;> rw [hpcs] <;> simp
  refine of_step (P := fun t => t.pcs.Pairwise (· < ·)) h (fun _ => hs) (fun hrun hstep => ?_)
    (fun _ _ _ hstart => hfresh hstart.trace_eq_nil) (fun _ _ => hfresh rfl)
  have hrun' : s.afterQuiet.phase = .run := hrun
  have hs' : s.afterQuiet.pcs.Pairwise (· < ·) := hs
  rcases hstep.pcs_cases hrun' with hpcs | ⟨hpcs, ⟨hlo, hhi⟩, hfollows⟩ <;> rw [hpcs]
  · exact hs'
  · rw [State.pcs_of_run hrun'] at hs' ⊢
    exact pairwise_lt_append_singleton hs' (hfollows.lt_of_forward fun i hi => hforward s.pc i hlo hhi hi)

/-! Widths. -/

/-- What the constraints of 00_scope.md R4 say of a block's widths. -/
theorem Params.widths_wf {q : Params} {W : Widths} (h : q.wf = true) (hW : q.widths = some W) :
    W.progCap + 1 ≤ 2 ^ W.pcW - 1 ∧ 2 ≤ 2 ^ W.cntW := by
  simp only [Params.wf, hW, Widths.wf, Bool.and_eq_true, decide_eq_true_eq] at h
  obtain ⟨hcap, hcnt⟩ := h
  exact ⟨hcap, Nat.pow_le_pow_right (n := 2) (by decide) hcnt⟩

/-- The latched configuration fits its widths, and its capacities once a run was seeded. -/
def ConfigFits (W : Widths) (s : State) : Prop :=
  s.n < 2 ^ W.regW ∧ s.p < 2 ^ W.regW ∧ s.k < 2 ^ W.symW ∧ s.maxSteps < 2 ^ W.cntW ∧ s.progLen < 2 ^ W.pcW ∧
    (s.outValid = true → s.progLen ≤ W.progCap ∧ s.maxSteps ≤ 2 ^ W.cntW - 2)

/-- Each INFO register fits. -/
def InfoFits (W : Widths) (i : Info) : Prop :=
  i.a < 2 ^ W.infoW ∧ i.b < 2 ^ W.infoW ∧ i.c < 2 ^ W.infoW ∧ i.d < 2 ^ W.infoW

theorem fitsWidths_iff (s : State) :
    FitsWidths s ↔ ∀ W, s.params.widths = some W →
      ConfigFits W s ∧ s.pc < 2 ^ W.pcW ∧ s.stepcnt < 2 ^ W.cntW ∧ InfoFits W s.info := by
  refine forall₂_congr fun W _ => ?_
  simp only [ConfigFits, InfoFits]
  tauto

theorem infoFits_zero (W : Widths) : InfoFits W Info.zero :=
  ⟨Nat.two_pow_pos _, Nat.two_pow_pos _, Nat.two_pow_pos _, Nat.two_pow_pos _⟩

/-- What a halt latches fits, whatever its details (10_state.md R27). -/
theorem infoFits_latch {q : Params} {W : Widths} (hW : q.widths = some W) (i : Info) : InfoFits W (i.latch q) :=
  ⟨infoField_lt hW _, infoField_lt hW _, infoField_lt hW _, infoField_lt hW _⟩

theorem StepResult.infoFits {s t : State} {W : Widths} (h : StepResult s t) (hW : s.params.widths = some W)
    (hs : InfoFits W s.info) : InfoFits W t.info := by
  cases h with
  | counted u done within =>
    obtain ⟨-, -, hinfo⟩ := done.same
    rw [State.countUp_info, hinfo]
    exact hs
  | limited u done passed => exact infoFits_latch (done.untouched.params ▸ hW) _
  | ended c why => exact infoFits_latch hW _

/-- PC and STEPCNT of a seeded run fit their registers with room for the one more that the constraints leave
(00_scope.md R4). -/
theorem pc_stepcnt_fit {s : State} {W : Widths} (hparams : s.params.wf = true) (hW : s.params.widths = some W)
    (hvalid : s.outValid = true) (hconfig : ConfigFits W s) (hpc : PcInProgram s) (hcount : CountInLimit s) :
    s.pc < 2 ^ W.pcW ∧ s.stepcnt < 2 ^ W.cntW := by
  obtain ⟨hcap, hcnt⟩ := Params.widths_wf hparams hW
  obtain ⟨-, -, -, -, -, hseeded⟩ := hconfig
  obtain ⟨hlen, hmax⟩ := hseeded hvalid
  obtain ⟨-, hhi, -⟩ := hpc
  obtain ⟨hle, -⟩ := hcount
  omega

/-- A step of a run: the configuration is as it was, PC and STEPCNT stay within the limits of a seeded run, and what
INFO then holds fits. -/
theorem Stepped.fitsWidths {s t : State} (h : Stepped s t) (hrun : s.phase = .run) (hs : Inv s)
    (hpc : PcInProgram t) (hcount : CountInLimit t) : FitsWidths t := by
  obtain ⟨hparams, hn, hp, hk, hmax, hlen, -, hvalid, -⟩ := h.untouched
  rw [fitsWidths_iff]
  intro W hW
  rw [hparams] at hW
  obtain ⟨hconfig, -, -, hinfo⟩ := (fitsWidths_iff s).mp hs.fits W hW
  have hconfig' : ConfigFits W t := by
    rw [ConfigFits, hn, hp, hk, hmax, hlen, hvalid]
    exact hconfig
  obtain ⟨-, -, hseeded, -⟩ := hs.status
  obtain ⟨hpc', hcnt'⟩ := pc_stepcnt_fit (hparams ▸ hs.paramsWf) (hparams ▸ hW) (hvalid.trans (hseeded hrun)) hconfig'
    hpc hcount
  exact ⟨hconfig', hpc', hcnt', (h.result hrun).infoFits hW hinfo⟩

/-- A start: the ports carry the configuration, and the configuration check has bounded what a run may use. -/
theorem Started.fitsWidths {l : Launch} {s t : State} (h : Started l s t) (hports : l.onPorts s.params = true)
    (hparams : s.params.wf = true) : FitsWidths t := by
  rw [fitsWidths_iff]
  intro W hW
  rw [h.params_eq] at hW
  obtain ⟨hcap, hcnt⟩ := Params.widths_wf hparams hW
  simp only [Launch.onPorts, hW, Bool.and_eq_true, decide_eq_true_eq] at hports
  obtain ⟨-, ⟨⟨⟨⟨hn, hp⟩, hk⟩, hmax⟩, hlen⟩, -⟩ := hports
  have hone : 1 < 2 ^ W.pcW := by omega
  have hzero : 0 < 2 ^ W.cntW := by omega
  cases h with
  | fails c notLimit ix sorted inProgram =>
    exact ⟨⟨hn, hp, hk, hmax, hlen, by simp⟩, hone, hzero, infoFits_latch hW _⟩
  | runs config inputs count held ix sorted index =>
    obtain ⟨-, -, -, hcaps, -⟩ := configOk_of_none config
    exact ⟨⟨hn, hp, hk, hmax, hlen, fun _ => hcaps W hW⟩, hone, hzero, infoFits_zero W⟩

theorem State.fitsWidths_afterReset {q : Params} (h : q.wf = true) (store : Memory) (host : List HostEvent) :
    FitsWidths (State.afterReset q store host) := by
  rw [fitsWidths_iff]
  intro W hW
  obtain ⟨hcap, hcnt⟩ := Params.widths_wf h hW
  have hone : 1 < 2 ^ W.pcW := by omega
  have hpos : ∀ n, 0 < 2 ^ n := Nat.two_pow_pos
  exact ⟨⟨hpos _, hpos _, hpos _, hpos _, hpos _, by simp [State.afterReset]⟩, hone, hpos _, infoFits_zero W⟩

/-! All of them together. -/

/-- A reset of any block with well-formed parameters, its store in canonical form, meets the invariants. -/
theorem State.inv_afterReset {q : Params} {store : Memory} (hq : q.wf = true) (hstore : Memory.wf store = true)
    (host : List HostEvent) : Inv (State.afterReset q store host) where
  paramsWf := hq
  canonical := ⟨hstore, rfl⟩
  bankSized := rfl
  symbols := fun v hv => by cases hv
  withinCap := fun cap _ v hv => by cases hv
  pcInProgram := ⟨Nat.le_refl 1, Nat.le_refl 1, fun lab pos hget => by cases hget⟩
  status := (State.countsAgree_afterReset q store host).status
  count := (State.countsAgree_afterReset q store host).count
  traceCounted := (State.countsAgree_afterReset q store host).traceCounted
  index := (indexExact_of_not_valid rfl).1
  filled := (indexExact_of_not_valid rfl).2
  fits := State.fitsWidths_afterReset hq store host
  replays := traceReplays_of_trace_nil rfl

/-- Settles O54: the default block is well formed and its store lists nothing. -/
theorem resetMeetsInvariant : Obligations.ResetMeetsInvariant := by
  unfold Obligations.ResetMeetsInvariant
  exact State.inv_afterReset rfl rfl []

/-- The invariants but for the widths are kept one by one; the widths need the others. -/
theorem inv_of_step {s t : State} (hs : Inv s) (h : step s = .next t) (hfits : FitsWidths t) : Inv t := by
  obtain ⟨hsized, hsymbols, hcap⟩ := stepKeepsSymbols s t ⟨hs.bankSized, hs.symbols, hs.withinCap⟩ h
  obtain ⟨hstatus, hcount, htrace⟩ := stepKeepsStatusAndCounts s t ⟨hs.status, hs.count, hs.traceCounted⟩ h
  obtain ⟨hindex, hfilled⟩ := stepKeepsIndexExact s t ⟨hs.index, hs.filled⟩ h
  exact ⟨step_params h ▸ hs.paramsWf, stepKeepsCanonicalStorage s t hs.canonical h, hsized, hsymbols, hcap,
    stepKeepsPcInProgram s t hs.pcInProgram h, hstatus, hcount, htrace, hindex, hfilled, hfits,
    stepKeepsTraceReplay s t hs.replays h⟩

/-- No invariant speaks of the host's next actions. -/
theorem Inv.withHost {s : State} (h : Inv s) (rest : List HostEvent) : Inv (s.withHost rest) :=
  ⟨h.paramsWf, h.canonical, h.bankSized, h.symbols, h.withinCap, h.pcInProgram, h.status, h.count, h.traceCounted,
    h.index, h.filled, h.fits, h.replays⟩

/-- Settles O53: each invariant is kept, and with PC and STEPCNT within their limits no register leaves its width. -/
theorem stepKeepsInvariant : Obligations.StepKeepsInvariant := by
  unfold Obligations.StepKeepsInvariant
  intro s t hs h
  have hpc : PcInProgram t := stepKeepsPcInProgram s t hs.pcInProgram h
  obtain ⟨-, hcount, -⟩ := stepKeepsStatusAndCounts s t ⟨hs.status, hs.count, hs.traceCounted⟩ h
  refine inv_of_step hs h ?_
  exact of_step h (fun _ => hs.fits) (fun hrun hstep => hstep.fitsWidths hrun (hs.withHost _) hpc hcount)
    (fun _ _ ⟨_, _, hports, _⟩ hstart => hstart.fitsWidths hports hs.paramsWf)
    (fun _ _ => State.fitsWidths_afterReset hs.paramsWf _ _)

/-! The machine does not stop. -/

/-- A location in the form its block fetches is fetched. -/
theorem State.fetch_of_wf {s : State} {c : StoreWord} (hread : Memory.read s.store s.pc = some c)
    (hwf : c.wf s.params = true) : ∃ fetched, s.fetch = some fetched := by
  cases c with
  | packed w =>
    cases hW : s.params.widths with
    | none => simp [StoreWord.wf, hW] at hwf
    | some W => exact ⟨_, State.fetch_of_packed hW hread⟩
  | record op f =>
    have hW : s.params.widths = none := by simpa [StoreWord.wf] using hwf
    exact ⟨_, State.fetch_of_record hW hread⟩

/-- In a run the range test ends the run or the position at PC is filled. -/
theorem step_of_running_answers {s : State} (hs : Inv s) (hr : Running s) : ∃ t, step s = .next t := by
  rw [step_of_running hr]
  refine State.protocolStep_of_fetch ?_
  cases hout : s.afterQuiet.pcOutside with
  | true => exact .inl rfl
  | false =>
    have hin : ¬ (s.pc < 1 ∨ s.progLen < s.pc) := fun h => by simp [s.afterQuiet.pcOutside_iff.mpr h] at hout
    obtain ⟨-, -, hvalid, -⟩ := hs.status
    obtain ⟨c, hread, hwf⟩ := hs.filled (hvalid hr.1) s.pc (by omega) (by omega)
    exact .inr (State.fetch_of_wf (s := s.afterQuiet) hread hwf)

theorem step_of_quiet_answers {s : State} (hs : Inv s) (hq : Quiet s) : ∃ t, step s = .next t := by
  by_cases hrun : s.phase = .run
  · exact step_of_running_answers hs ⟨hrun, hq⟩
  · exact ⟨_, idleAndHaltedHold s hq hrun⟩

/-- Settles O55: by the host's next action; a start outside RUN is the only one that can be refused. -/
theorem onlyLaunchesAreRefused : Obligations.OnlyLaunchesAreRefused := by
  unfold Obligations.OnlyLaunchesAreRefused
  intro s hs
  cases hhost : s.host with
  | nil => exact .inl (step_of_quiet_answers hs (.inl hhost))
  | cons e rest =>
    cases e with
    | quiet => exact .inl (step_of_quiet_answers hs (.inr ⟨rest, hhost⟩))
    | start l =>
      by_cases hrun : s.phase = .run
      · exact .inl ⟨_, step_of_start_in_run hhost hrun⟩
      · rw [step_of_start hhost hrun]
        exact ((s.withHost rest).acceptStart_answers l).imp (fun ⟨t, ht, _⟩ => ⟨t, ht⟩)
          fun hrefused => ⟨l, rest, rfl, hrun, hrefused⟩
    | reset => exact .inl ⟨_, step_of_reset hhost⟩

/-! Every run ends. -/

/-- A step of a run counts within the limit, or ends the run. -/
theorem StepResult.counts_or_halts {s t : State} (h : StepResult s t) (hrun : s.phase = .run) :
    (t.phase = .run ∧ t.stepcnt = s.stepcnt + 1) ∨ t.phase = .halted := by
  cases h with
  | counted u done within =>
    have hcnt : u.stepcnt = s.stepcnt := done.untouched.stepcnt
    exact .inl ⟨done.same.1.trans hrun, by rw [State.countUp_stepcnt, hcnt]⟩
  | limited u done passed => exact .inr rfl
  | ended c why => exact .inr rfl

theorem Inv.stepcnt_le {s : State} (hs : Inv s) (hrun : s.phase = .run) : s.stepcnt ≤ s.maxSteps := by
  obtain ⟨-, -, -, hle, -⟩ := (countsAgree_iff_of_run hrun).mp ⟨hs.status, hs.count, hs.traceCounted⟩
  exact hle

/-- With `left` transitions left before the limit is passed, the run is HALTED after them. -/
theorem run_halts {left : Nat} {s : State} (hs : Inv s) (hrun : s.phase = .run) (hhost : s.host = [])
    (hleft : s.maxSteps + 1 - s.stepcnt = left) :
    ∃ t, Host.Core.run Sys2Proof.core left s = .next t ∧ Phase.halted = State.phase t := by
  induction left generalizing s with
  | zero =>
    have := hs.stepcnt_le hrun
    omega
  | succ left ih =>
    obtain ⟨t, ht⟩ := step_of_quiet_answers hs (.inl hhost)
    have hunfold : Host.Core.run Sys2Proof.core (left + 1) s = Host.Core.run Sys2Proof.core left t := by
      have hcore : Sys2Proof.core.step s = .next t := ht
      simp only [Host.Core.run, hcore]
    rw [hunfold]
    have hstep : Stepped s.afterQuiet t := by
      rw [step_of_running ⟨hrun, .inl hhost⟩] at ht
      exact State.protocolStep_stepped ht
    obtain ⟨-, -, -, -, hmax, -, -, -, -, -, hhost'⟩ := hstep.untouched
    have hquiet : t.host = [] := by rw [hhost', State.afterQuiet_host, hhost]; rfl
    rcases (hstep.result hrun).counts_or_halts hrun with ⟨hrun', hcnt⟩ | hhalted
    · rw [State.afterQuiet_maxSteps] at hmax
      rw [State.afterQuiet_stepcnt] at hcnt
      exact ih (stepKeepsInvariant s t hs ht) hrun' hquiet (by omega)
    · exact ⟨t, run_of_halted left hhalted hquiet, hhalted.symm⟩

/-- Settles O56: each transition of the run counts one step or ends it, and a block that has halted stays so. -/
theorem everyRunEnds : Obligations.EveryRunEnds := by
  unfold Obligations.EveryRunEnds
  intro s hs hrun hhost
  exact run_halts hs hrun hhost rfl

/-! A well-formed program. -/

/-- Where every position holds an instruction whose operands name registers, a halt that is not counted is neither the
decoder's nor the operand check's. -/
theorem Ended.cause_of_programWf {s : State} {c : Halt} (h : Ended s c) (hwf : ProgramWf s) :
    c.cause ≠ .illegalInstruction ∧ c.cause ≠ .operandError := by
  cases h with
  | leaves => simp [Halt.cause]
  | illegal word inRange noInstr =>
    obtain ⟨i, hi, -⟩ := hwf s.pc inRange.1 inRange.2
    rw [noInstr] at hi
    cases hi
  | raised i c inRange fetched raised =>
    obtain ⟨j, hj, hoperands⟩ := hwf s.pc inRange.1 inRange.2
    obtain rfl : i = j := Option.some.inj (fetched.symm.trans hj)
    exact ⟨raised.notIllegal, fun hcause => raised.operand hcause hoperands⟩

/-- Settles O57: a step of the run that goes on leaves CAUSE NONE, one that passes the limit has that cause, and the
rest are halts that are not counted. -/
theorem wellFormedProgramNeverFaultsAtDecode : Obligations.WellFormedProgramNeverFaultsAtDecode := by
  unfold Obligations.WellFormedProgramNeverFaultsAtDecode
  intro s t hstatus hr hwf h
  have hnone : s.cause = .none := hstatus.1.mpr (by simp [hr.1])
  rw [step_of_running hr] at h
  cases (State.protocolStep_stepped h).result hr.1 with
  | counted u done within =>
    obtain ⟨-, hcause, -⟩ := done.same
    have hcause' : u.cause = .none := hcause.trans hnone
    simp [hcause']
  | limited u done passed => simp [Halt.cause]
  | ended c why => exact why.cause_of_programWf hwf

end Sys2Proof.Machine
end

section
/-! PROOF of the refinement (00_scope.md R5): the machine with its widths unbounded takes each step of a run of legal
words that the bounded one takes. Every operation is the same on both but the one that latches INFO. -/

namespace Sys2Proof.Machine

/-! What an INFO register is wide enough for (10_state.md R27). -/

theorem lt_infoW_of_pcW {W : Widths} {v : Nat} (h : v < 2 ^ W.pcW) : v < 2 ^ W.infoW :=
  h.trans_le (Nat.pow_le_pow_right (by decide) (by simp [Widths.infoW]))

theorem lt_infoW_of_cntW {W : Widths} {v : Nat} (h : v < 2 ^ W.cntW) : v < 2 ^ W.infoW :=
  h.trans_le (Nat.pow_le_pow_right (by decide) (by simp [Widths.infoW]))

theorem lt_infoW_of_yW {W : Widths} {v : Nat} (h : v < 2 ^ W.yW) : v < 2 ^ W.infoW :=
  h.trans_le (Nat.pow_le_pow_right (by decide) (by simp [Widths.infoW]))

theorem lt_infoW_of_regW {W : Widths} {v : Nat} (h : v < 2 ^ W.regW) : v < 2 ^ W.infoW :=
  lt_infoW_of_yW (h.trans_le (Nat.pow_le_pow_right (by decide) (by simp [Widths.yW])))

theorem lt_infoW_of_le_one {W : Widths} {v : Nat} (h : v ≤ 1) : v < 2 ^ W.infoW := by
  have h32 : 2 ^ 32 ≤ 2 ^ W.infoW := Nat.pow_le_pow_right (by decide) (by simp [Widths.infoW])
  omega

theorem RegField.code_le_one (q : RegField) : q.code ≤ 1 := by cases q <;> decide

theorem Dir.code_le_one (d : Dir) : d.code ≤ 1 := by cases d <;> decide

/-! Two states, the second the first with its widths unbounded, up to INFO. -/

/-- `t'` is `t` with its widths unbounded, but for INFO; and INFO too where INFO registers hold a symbol. -/
def Mirrors (W : Widths) (t t' : State) : Prop :=
  ∃ i, t' = { t.unbounded W with info := i } ∧ (W.symW ≤ W.infoW → i = t.info)

theorem Mirrors.refl (W : Widths) (s : State) : Mirrors W s (s.unbounded W) := ⟨s.info, rfl, fun _ => rfl⟩

theorem latch_of_infoFits {q : Params} {W : Widths} {i : Info} (hW : q.widths = some W) (h : InfoFits W i) :
    i.latch q = i := by
  have hfield : ∀ {v : Nat}, v < 2 ^ W.infoW → infoField q v = v := fun hv =>
    infoField_fits (by simpa [fitsInfo, hW] using hv)
  obtain ⟨ha, hb, hc, hd⟩ := h
  rw [Info.latch, hfield ha, hfield hb, hfield hc, hfield hd]

/-- The same halt on both, its details in range: INFO agrees where INFO registers hold a symbol. -/
theorem Mirrors.raiseHalt {W : Widths} {t t' : State} {c : Halt} (h : Mirrors W t t') (hW : t.params.widths = some W)
    (hfits : W.symW ≤ W.infoW → InfoFits W c.info) : Mirrors W (t.raiseHalt c) (t'.raiseHalt c) := by
  obtain ⟨i, rfl, -⟩ := h
  exact ⟨c.info, rfl, fun hsym => (latch_of_infoFits hW (hfits hsym)).symm⟩

/-- Item 5 on both: STEPCNT and MAX_STEPS are the same, so both go on or both pass the limit. -/
theorem Mirrors.countStep {W : Widths} {u u' : State} (h : Mirrors W u u') (hW : u.params.widths = some W)
    (hcnt : u.stepcnt + 1 < 2 ^ W.cntW) (hmax : u.maxSteps < 2 ^ W.cntW) : Mirrors W u.countStep u'.countStep := by
  obtain ⟨hphase, hcnt', hmax'⟩ : u'.phase = u.phase ∧ u'.stepcnt = u.stepcnt ∧ u'.maxSteps = u.maxSteps := by
    obtain ⟨i, rfl, -⟩ := h
    exact ⟨rfl, rfl, rfl⟩
  have hcounted : Mirrors W u.countUp u'.countUp := by
    obtain ⟨i, rfl, hi⟩ := h
    exact ⟨i, rfl, hi⟩
  simp only [State.countStep, State.countUp_stepcnt, hphase, hcnt', hmax']
  cases u.phase with
  | idle => exact h
  | halted => exact h
  | run =>
    by_cases hlt : u.maxSteps < u.stepcnt + 1
    · simp only [hlt, if_true]
      exact hcounted.raiseHalt hW fun _ =>
        ⟨lt_infoW_of_cntW hcnt, lt_infoW_of_cntW hmax, Nat.two_pow_pos _, Nat.two_pow_pos _⟩
    · simpa only [hlt, if_false] using hcounted

/-! The four parts on both. -/

@[simp] theorem State.unbounded_p (W : Widths) (s : State) : (s.unbounded W).p = s.p := rfl

@[simp] theorem State.readReg_unbounded (W : Widths) (s : State) (i : Nat) :
    (s.unbounded W).readReg i = s.readReg i := by cases i <;> rfl

theorem State.writeReg_unbounded (W : Widths) (s : State) (i : Nat) (v : Seq) :
    (s.unbounded W).writeReg i v = (s.writeReg i v).unbounded W := by cases i <;> rfl

theorem muxRead_unbounded (W : Widths) (c : Control) (f : Fields) (s : State) :
    muxRead c f (s.unbounded W) = muxRead c f s := by
  cases hr : c.rsel <;> simp [muxRead, hr]

theorem muxWrite_unbounded (W : Widths) (c : Control) (f : Fields) (v : Seq) (s : State) :
    muxWrite c f v (s.unbounded W) = (muxWrite c f v s).unbounded W := by
  cases hw : c.wsel <;> simp [muxWrite, hw, State.writeReg_unbounded]

/-- CAP, K and PC are the same on both. -/
theorem datapath_unbounded (W : Widths) (c : Control) (f : Fields) (s : State) (v : Seq) :
    datapath c f (s.unbounded W) v = datapath c f s v := rfl

/-- LIDX and PC are the same on both. -/
theorem arbiter_unbounded (W : Widths) (c : Control) (f : Fields) (s : State) (v : Seq) :
    arbiter c f (s.unbounded W) v = arbiter c f s v := rfl

/-- What the details of an instruction's halts are taken from fits: PC, the fields, and the targets listed. -/
structure DetailsFit (W : Widths) (s : State) (f : Fields) : Prop where
  pc : s.pc < 2 ^ W.pcW
  target : ∀ lab t, Table.get s.lidx lab = some t → t < 2 ^ W.pcW
  x : f.x < 2 ^ W.regW
  j : f.j < 2 ^ W.symW
  y : f.y < 2 ^ W.yW

theorem DetailsFit.infoFits_operand {W : Widths} {s : State} {f : Fields} (h : DetailsFit W s f) (q : RegField) :
    InfoFits W (Halt.operand s.pc q (q.value f)).info := by
  refine ⟨lt_infoW_of_pcW h.pc, lt_infoW_of_le_one q.code_le_one, ?_, Nat.two_pow_pos _⟩
  cases q with
  | x => exact lt_infoW_of_regW h.x
  | y => exact lt_infoW_of_yW h.y

/-- The datapath's halts are ADD's two; AlphabetError carries the symbol. -/
theorem DetailsFit.infoFits_of_datapath {W : Widths} {s : State} {f : Fields} (h : DetailsFit W s f) {c : Control}
    {v : Seq} {halt : Halt} (herr : datapath c f s v = .error halt)
    (hsym : W.symW ≤ W.infoW) : InfoFits W halt.info := by
  unfold datapath at herr
  split at herr
  case h_2 =>
    split at herr
    · split at herr
      · cases herr
        exact ⟨lt_infoW_of_pcW h.pc, lt_infoW_of_yW h.y, Nat.two_pow_pos _, Nat.two_pow_pos _⟩
      · cases herr
    · cases herr
      exact ⟨lt_infoW_of_le_one (Nat.le_refl 1), lt_infoW_of_pcW h.pc, Nat.two_pow_pos _,
        h.j.trans_le (Nat.pow_le_pow_right (by decide) hsym)⟩
  all_goals cases herr

/-- The arbiter's halts carry the label, PC and a listed target. -/
theorem DetailsFit.infoFits_of_arbiter {W : Widths} {s : State} {f : Fields} (h : DetailsFit W s f) {c : Control}
    {v : Seq} {halt : Halt} (herr : arbiter c f s v = .error halt) : InfoFits W halt.info := by
  unfold arbiter State.resolve at herr
  split at herr
  · split at herr
    · cases herr
      exact ⟨lt_infoW_of_yW h.y, lt_infoW_of_pcW h.pc, Nat.two_pow_pos _, Nat.two_pow_pos _⟩
    · rename_i t ht
      split at herr
      · cases herr
      · cases herr
        exact ⟨lt_infoW_of_le_one c.dir.code_le_one, lt_infoW_of_yW h.y, lt_infoW_of_pcW h.pc,
          lt_infoW_of_pcW (h.target _ _ ht)⟩
  · cases herr

/-- The four parts raise the same halt on both, or write the same register and PC. -/
theorem driveParts_mirrors {W : Widths} {s : State} {f : Fields} (hW : s.params.widths = some W)
    (h : DetailsFit W s f) (c : Control) (v : Seq) :
    Mirrors W (driveParts c f s v) (driveParts c f (s.unbounded W) v) := by
  unfold driveParts
  rw [datapath_unbounded]
  cases c.halt with
  | true => exact (Mirrors.refl W s).raiseHalt hW fun _ => infoFits_zero W
  | false =>
    cases hdata : datapath c f s v with
    | error halt => exact (Mirrors.refl W s).raiseHalt hW (h.infoFits_of_datapath hdata)
    | ok v' =>
      cases harb : arbiter c f s v with
      | error halt =>
        simp only [arbiter_unbounded, harb]
        exact (Mirrors.refl W s).raiseHalt hW fun _ => h.infoFits_of_arbiter harb
      | ok t =>
        simp only [arbiter_unbounded, harb, muxWrite_unbounded]
        exact Mirrors.refl W _

/-- An instruction on both, by the control word that drives it. -/
theorem exec_mirrors {W : Widths} {s u : State} {i : Instr} (hW : s.params.widths = some W)
    (h : DetailsFit W s i.fields) (hu : exec i s = .next u) :
    ∃ u', exec i (s.unbounded W) = .next u' ∧ Mirrors W u u' := by
  rw [controlWordAgrees] at hu
  cases hu
  refine ⟨_, controlWordAgrees i _, ?_⟩
  unfold driveControl
  rw [State.unbounded_p, muxRead_unbounded]
  cases firstBadField s.p i.fields (muxFields (controlWord i.opcode)) with
  | some q => exact (Mirrors.refl W s).raiseHalt hW fun _ => h.infoFits_operand q
  | none => exact driveParts_mirrors hW h _ _

/-! The fetch on both. -/

/-- An instruction of a bounded block is the decoding of a packed word. -/
theorem State.packed_of_instrAt {s : State} {W : Widths} {pos : Nat} {i : Instr} (hW : s.params.widths = some W)
    (h : s.instrAt pos = some i) : ∃ w, Memory.read s.store pos = some (.packed w) ∧ decode W w = .instr i := by
  cases hread : Memory.read s.store pos with
  | none => simp [State.instrAt, State.fetch, hread] at h
  | some c =>
    cases c with
    | record op f => simp [State.instrAt, State.fetch, hread, hW] at h
    | packed w =>
      cases hd : decode W w with
      | illegal why => simp [State.instrAt, State.fetch, hread, hW, hd] at h
      | instr j =>
        simp only [State.instrAt_of_packed hW hread hd, Option.some.injEq] at h
        exact ⟨w, rfl, h ▸ hd⟩

theorem State.read_unbounded (W : Widths) (s : State) (pos : Nat) :
    Memory.read (s.unbounded W).store pos = (Memory.read s.store pos).map (toRecord W) :=
  Memory.read_map (toRecord W) s.store pos

/-- The record that stands for a legal word is its instruction (30_encoding.md R61). -/
theorem State.instrAt_unbounded {s : State} {W : Widths} {pos : Nat} {i : Instr} (hW : s.params.widths = some W)
    (h : s.instrAt pos = some i) : (s.unbounded W).instrAt pos = some i := by
  obtain ⟨w, hread, hd⟩ := State.packed_of_instrAt hW h
  have hrecord : Memory.read (s.unbounded W).store pos = some (.record (some i.opcode) i.fields) := by
    simp [State.read_unbounded, hread, toRecord, hd]
  exact State.instrAt_of_record rfl hrecord

/-- In a run that meets the invariants, PC, the decoded fields and the listed targets fit. -/
theorem Inv.detailsFit {s : State} {W : Widths} {pos : Nat} {i : Instr} (hs : Inv s) (hW : s.params.widths = some W)
    (hi : s.instrAt pos = some i) : DetailsFit W s i.fields := by
  obtain ⟨⟨-, -, -, -, hlen, -⟩, hpc, -, -⟩ := (fitsWidths_iff s).mp hs.fits W hW
  obtain ⟨-, -, htargets⟩ := hs.pcInProgram
  obtain ⟨w, -, hd⟩ := State.packed_of_instrAt hW hi
  obtain ⟨-, -, hfields⟩ := decode_eq_instr_iff.mp hd
  rw [hfields]
  exact ⟨hpc, fun lab t ht => (htargets lab t ht).2.trans_lt hlen, bitField_lt _ _ _, bitField_lt _ _ _,
    bitField_lt _ _ _⟩

/-- In a run that meets the invariants one more step can be counted (00_scope.md R4). -/
theorem Inv.stepcnt_succ_lt {s : State} {W : Widths} (hs : Inv s) (hrun : s.phase = .run)
    (hW : s.params.widths = some W) : s.stepcnt + 1 < 2 ^ W.cntW ∧ s.maxSteps < 2 ^ W.cntW := by
  obtain ⟨⟨-, -, -, hmax, -, hseeded⟩, -, -, -⟩ := (fitsWidths_iff s).mp hs.fits W hW
  obtain ⟨-, -, hvalid, -⟩ := hs.status
  obtain ⟨-, hcap⟩ := hseeded (hvalid hrun)
  obtain ⟨-, hcnt⟩ := Params.widths_wf hs.paramsWf hW
  have := hs.stepcnt_le hrun
  omega

/-- The step of the unbounded machine. -/
theorem step_mirrors {s t : State} {W : Widths} (hW : s.params.widths = some W) (hs : Inv s) (hr : Running s)
    (hlegal : ProgramLegal s) (h : step s = .next t) : ∃ t', step (s.unbounded W) = .next t' ∧ Mirrors W t t' := by
  have hr' : Running (s.unbounded W) := hr
  rw [step_of_running hr] at h
  cases State.protocolStep_stepped h with
  | leaves outside =>
    obtain ⟨⟨-, -, -, -, hlen, -⟩, hpc, -, -⟩ := (fitsWidths_iff s).mp hs.fits W hW
    refine ⟨_, pcOutOfRangeHalts (s.unbounded W) hr' outside, ?_⟩
    exact (Mirrors.refl W s.afterQuiet.emit).raiseHalt hW fun _ =>
      ⟨lt_infoW_of_pcW hpc, lt_infoW_of_pcW hlen, Nat.two_pow_pos _, Nat.two_pow_pos _⟩
  | illegal word inRange noInstr =>
    obtain ⟨i, hi⟩ := hlegal s.pc inRange.1 inRange.2
    cases hi.symm.trans noInstr
  | runs i u inRange fetched executed effect =>
    have hi : s.instrAt s.pc = some i := fetched
    have hfit : DetailsFit W s i.fields := hs.detailsFit hW hi
    obtain ⟨u', hu', hmirror⟩ := exec_mirrors (s := s.afterQuiet.emit) hW
      ⟨hfit.pc, hfit.target, hfit.x, hfit.j, hfit.y⟩ executed
    refine ⟨_, step_of_instrAt hr' inRange (State.instrAt_unbounded hW hi) hu', ?_⟩
    obtain ⟨hcnt, hmax⟩ := hs.stepcnt_succ_lt hr.1 hW
    have hu := effect.untouched
    exact hmirror.countStep (hu.params ▸ hW) (hu.stepcnt ▸ hcnt) (hu.maxSteps ▸ hmax)

/-- Settles O59: the mirrored step is the next state with its widths unbounded, up to INFO. -/
theorem boundedStepIsUnbounded : Obligations.BoundedStepIsUnbounded := by
  unfold Obligations.BoundedStepIsUnbounded
  intro s t W hW hs hr hlegal h
  obtain ⟨t', ht', i, rfl, hi⟩ := step_mirrors hW hs hr hlegal h
  exact ⟨i, ht', hi⟩

end Sys2Proof.Machine
end
